-- ==== Sys2Proof/Word.lean ====
section
/-!
DEFINITION. The widths of the block's data (R6), as plain bit-vector and byte-string types.
A byte string of fixed length is a `Vector` of bytes, index 0 first (R9).
-/
namespace Sys2Proof

/-- One byte of the command port or of the cipher state. -/
abbrev Byte := BitVec 8

/-- A 128-bit register or result: CTR, RK[i], DOUT (R6). -/
abbrev Word := BitVec 128

/-- A 64-bit half of CTR: a C64 variant's nonce or counter (R24). -/
abbrev Half := BitVec 64

/-- The 16 bytes of an AES block, of a round key or of the cipher state, byte 0 first (R6, R105). -/
abbrev Block := Vector Byte 16

/-- A 4-byte word of the key schedule, byte 0 first (R120, R123). -/
abbrev KeyWord := Vector Byte 4

/-- The 48 bytes of request data, `DIN[0..47]` (R60). -/
abbrev Din := Vector Byte 48

end Sys2Proof
end

