-- ==== Sys2Proof/Syntax.lean ====
section
/-!
DEFINITION. The commands of RACMD version 1, one constructor per row of spec/opcode_table.json (R65).
The request data DIN is no operand of a constructor: decode reads CMD alone (R70), and a command reads
DIN from the request in flight.
-/
namespace Sys2Proof

/-- A decoded command word. `seed` carries its whole ARG field, whose bits 3:2 are reserved (R62);
`readRk` carries the 4-bit round-key index (R63). -/
inductive Instr where
  /-- NOP, 0x00 (R160). -/
  | nop
  /-- SEED, 0x10 to 0x13; `arg[1:0]` is the variant, `arg[3:2]` is reserved (R62, R141). -/
  | seed (arg : BitVec 4)
  /-- NEXT, 0x20 (R142). -/
  | next
  /-- COUNTER, 0x30 (R144). -/
  | counter
  /-- JUMP, 0x40 (R145). -/
  | jump
  /-- LONG_JUMP, 0x50 (R146). -/
  | longJump
  /-- ENCRYPT, 0x60 (R161). -/
  | encrypt
  /-- READ_RK, 0x70 to 0x7F; `idx` is the round-key index (R63, R162). -/
  | readRk (idx : BitVec 4)
  /-- ZEROIZE, 0x80 (R164). -/
  | zeroize
  /-- STATUS, 0x90 (R163). -/
  | status
  deriving DecidableEq, Repr

end Sys2Proof
end

