-- ==== Sys2Proof/WellFormed.lean ====
section
/-!
DEFINITION. Which terms of `Instr` the command encoding can express (R61 to R64).
The one reserved field that a constructor carries is SEED's ARG[3:2]; every READ_RK index decodes (R63).
-/
namespace Sys2Proof

/-- SEED's reserved bits ARG[3:2] are 0b00 (R62). -/
def seedArgOk (arg : BitVec 4) : Bool := arg.extractLsb' 2 2 == 0#2

/-- The operand fields of a command hold values the encoding admits. -/
def Instr.wf : Instr → Bool
  | .nop => true
  | .seed arg => seedArgOk arg
  | .next => true
  | .counter => true
  | .jump => true
  | .longJump => true
  | .encrypt => true
  | .readRk _ => true
  | .zeroize => true
  | .status => true

/-- `i` is a command that some legal CMD word stands for. -/
abbrev Instr.WellFormed (i : Instr) : Prop := i.wf = true

end Sys2Proof
end

