-- ==== Sys2Proof/Decode.lean ====
section
/-!
DEFINITION. Decoding of the 8-bit command word CMD, total on all 256 words (R70), and the encoder.
Both are written from the opcode map R65 and the field rules R61 to R64.
-/
namespace Sys2Proof

/-- Why a CMD word is ILLEGAL: the three groups of words that R201 lists. -/
inductive Illegal where
  /-- Opcode 0xA to 0xF (R66). -/
  | reservedOpcode
  /-- SEED with ARG[3:2] not 0b00 (R62). -/
  | reservedVariantBits
  /-- An opcode other than SEED and READ_RK with ARG not 0x0 (R64). -/
  | reservedArg
  deriving DecidableEq, Repr

/-- What decode returns: a command, or ILLEGAL with its reason (R70). -/
inductive Decoded where
  | command (i : Instr)
  | illegal (why : Illegal)
  deriving DecidableEq, Repr

/-- `OPC = CMD[7:4]` (R61). -/
def opcOf (cmd : Byte) : BitVec 4 := cmd.extractLsb' 4 4

/-- `ARG = CMD[3:0]` (R61). -/
def argOf (cmd : Byte) : BitVec 4 := cmd.extractLsb' 0 4

/-- A command whose ARG is reserved: it decodes only when ARG is 0x0 (R64). -/
def noArg (arg : BitVec 4) (i : Instr) : Decoded :=
  if arg = 0#4 then .command i else .illegal .reservedArg

/-- SEED decodes only when ARG[3:2] is 0b00 (R62). -/
def seedOf (arg : BitVec 4) : Decoded :=
  if seedArgOk arg then .command (.seed arg) else .illegal .reservedVariantBits

/-- The decoder: it reads CMD alone, never the state or DIN (R70). -/
def decode (cmd : Byte) : Decoded :=
  match (opcOf cmd).toNat with
  | 0x0 => noArg (argOf cmd) .nop
  | 0x1 => seedOf (argOf cmd)
  | 0x2 => noArg (argOf cmd) .next
  | 0x3 => noArg (argOf cmd) .counter
  | 0x4 => noArg (argOf cmd) .jump
  | 0x5 => noArg (argOf cmd) .longJump
  | 0x6 => noArg (argOf cmd) .encrypt
  | 0x7 => .command (.readRk (argOf cmd))
  | 0x8 => noArg (argOf cmd) .zeroize
  | 0x9 => noArg (argOf cmd) .status
  | _ => .illegal .reservedOpcode

/-- The OPC of a command (R65). -/
def opcode : Instr → BitVec 4
  | .nop => 0x0
  | .seed _ => 0x1
  | .next => 0x2
  | .counter => 0x3
  | .jump => 0x4
  | .longJump => 0x5
  | .encrypt => 0x6
  | .readRk _ => 0x7
  | .zeroize => 0x8
  | .status => 0x9

/-- The ARG of a command: the variant field for SEED, the index for READ_RK, else 0 (R60). -/
def argument : Instr → BitVec 4
  | .nop => 0x0
  | .seed arg => arg
  | .next => 0x0
  | .counter => 0x0
  | .jump => 0x0
  | .longJump => 0x0
  | .encrypt => 0x0
  | .readRk idx => idx
  | .zeroize => 0x0
  | .status => 0x0

/-- The command word of a command, `OPC || ARG` (R61). -/
def encode (i : Instr) : Byte := opcode i ++ argument i

/-- The command that the decoder reads from a table word: CMD is bits 7:0 of the request, and bits from
`nbits` up are 0. `none` where the word is ILLEGAL. -/
def decodeTableWord (nbits w : Nat) : Option Instr :=
  match decode (BitVec.ofNat 8 (w % 2 ^ nbits)) with
  | .command i => some i
  | .illegal _ => none

end Sys2Proof
end

