-- ==== Sys2Proof/Machine/State.lean ====
section
/-!
DEFINITION. The state of one block: the architectural tuple of R20 and the command port.
The block has no registers beside the tuple and no memory (R26, R40). What crosses the port (requests,
responses, the RESET event) is held as plain data, so that one deterministic step can read it.
-/
namespace Sys2Proof.Machine

/-- The five values STATUS can take (R200); their 8-bit codes are `Status.code`. -/
inductive Status where
  | ok
  | errIllegal
  | errUnseeded
  | errVariant
  | errRange
  deriving DecidableEq, Repr

/-- A request on the command port: CMD and DIN (R60). -/
structure Request where
  cmd : Byte
  din : Din
  deriving DecidableEq, Repr

/-- A response on the command port: STATUS and DOUT (R60). -/
structure Response where
  status : Status
  dout   : Word
  deriving DecidableEq, Repr

/-- What the outside world can do to a block: send a request (R60) or raise RESET, outside a command or
while a command is in flight (R220). Assumption log 1 and 2. -/
inductive PortInput where
  /-- The host's next request. -/
  | request (r : Request)
  /-- RESET outside a command. -/
  | reset
  /-- RESET while the command `r`, already accepted, is in flight. -/
  | resetInFlight (r : Request)
  deriving DecidableEq, Repr

/-- The block has no fault: an error is reported in the response, changes nothing and leaves the block
ready (R205, R209). The type has no constructor, so no step can end in a fault. -/
inductive Fault where
  deriving DecidableEq, Repr

/-- Why the model gives a run no meaning. -/
inductive Refusal where
  /-- Raised by `exec` for a command that has no meaning yet; no arm of it does so now. Safe: the run stops. -/
  | notModelled (mnemonic : String)
  /-- Raised by `Platform` when a host drives a port where no block is present (R208, I3). Safe: the run stops. -/
  | noBlockPresent
  deriving DecidableEq, Repr

/-- One block instance. `seeded`, `var`, `rk` and `ctr` are the architectural tuple `(SEEDED, VAR, RK, CTR)`
of R20; the last three fields are the command port. -/
structure State where
  /-- SEEDED (R21). -/
  seeded   : Bool
  /-- VAR: bit 0 the counter width, bit 1 the key size (R22). -/
  var      : BitVec 2
  /-- RK[0..14], each `fromLE` of its 16 bytes (R23). -/
  rk       : Vector Word 15
  /-- CTR (R24). -/
  ctr      : Word
  /-- What the outside world does next, oldest first; not accepted by the block yet (R49). -/
  inputs   : List PortInput
  /-- The command in flight, at most one (R49); `none` between steps. -/
  inFlight : Option Request
  /-- The response to the last command that completed; `none` after reset. Log 3. -/
  response : Option Response
  deriving DecidableEq, Repr

/-- The outcome of one step or of one command. -/
abbrev Result := Host.Outcome State Fault Refusal

/-- The architectural state of R20. -/
def State.tuple (s : State) : Bool × BitVec 2 × Vector Word 15 × Word :=
  (s.seeded, s.var, s.rk, s.ctr)

/-- The state right after RESET (R221): unseeded, every register 0, nothing on the port. -/
def State.reset : State where
  seeded := false
  var := 0
  rk := Vector.replicate 15 0
  ctr := 0
  inputs := []
  inFlight := none
  response := none

end Sys2Proof.Machine
end

