-- ==== Sys2Proof/Machine/Operands.lean ====
section
/-!
DEFINITION. Byte order at the port (R9, R41), the parameters of a variant (R5, R22) and the operand fields
of DIN (R44, R67).
-/
namespace Sys2Proof.Machine

/-! ### Little-endian conversions (R9) -/

/-- `LE_n(v)[i] = v[8i+7 : 8i]`. -/
def leByte {n : Nat} (v : BitVec n) (i : Nat) : Byte := v.extractLsb' (8 * i) 8

/-- `LE_128(v)` as a block. -/
def le128 (v : Word) : Block := Vector.ofFn fun i => leByte v i.val

/-- `fromLE(b) = sum over i of b[i] * 2^(8i)`, as a number. -/
def fromLENat : List Byte → Nat
  | [] => 0
  | b :: bs => b.toNat + 256 * fromLENat bs

/-- `fromLE` of an 8-byte string. -/
def fromLE64 (b : List Byte) : Half := BitVec.ofNat 64 (fromLENat b)

/-- `fromLE` of a 16-byte string. -/
def fromLE128 (b : List Byte) : Word := BitVec.ofNat 128 (fromLENat b)

/-- `fromLE` of a block. -/
def fromLEBlock (b : Block) : Word := fromLE128 b.toList

/-- `hi || lo` of two 64-bit halves, `hi * 2^64 + lo` (R8): the layout of CTR in a C64 variant (R24). -/
def joinHalves (hi lo : Half) : Word := hi ++ lo

/-! ### The parameters of a variant (R5, R22) -/

/-- Nk, the key length in 32-bit words. -/
def nkOf (var : BitVec 2) : Nat := if var.getLsbD 1 then 8 else 4

/-- Nr, the number of rounds (R113). -/
def nrOf (var : BitVec 2) : Nat := if var.getLsbD 1 then 14 else 10

/-- NRK, the number of round-key blocks. -/
def nrkOf (var : BitVec 2) : Nat := nrOf var + 1

/-- CW, the counter width. -/
def cwOf (var : BitVec 2) : Nat := if var.getLsbD 0 then 128 else 64

/-- K, the key length in bytes (R44). -/
def keyBytesOf (var : BitVec 2) : Nat := if var.getLsbD 1 then 32 else 16

/-- How many bytes of DIN a SEED of the variant uses (R2, R67). -/
def seedBytesOf (var : BitVec 2) : Nat := keyBytesOf var + 16

/-- The variant that SEED's ARG selects, `ARG[1:0]` (R62). -/
def seedVar (arg : BitVec 4) : BitVec 2 := arg.extractLsb' 0 2

/-! ### The operand fields of DIN (R44, R67) -/

/-- `DIN[off .. off+len-1]`. -/
def dinSlice (d : Din) (off len : Nat) : List Byte := (d.toList.drop off).take len

/-- SEED's key bytes, `DIN[0..K-1]` in order (R44). -/
def seedKey (var : BitVec 2) (d : Din) : List Byte := dinSlice d 0 (keyBytesOf var)

/-- The counter register a SEED loads: `nonce || counter` for C64, the counter for C128 (R44, R141). -/
def seedCtr (var : BitVec 2) (d : Din) : Word :=
  if var.getLsbD 0 then
    fromLE128 (dinSlice d (keyBytesOf var) 16)
  else
    joinHalves (fromLE64 (dinSlice d (keyBytesOf var) 8)) (fromLE64 (dinSlice d (keyBytesOf var + 8) 8))

/-- ENCRYPT's plaintext, `DIN[0..15]` (R161). -/
def plaintext (d : Din) : Block := Vector.ofFn fun i => d[i.val]

/-- DIN with every byte 0. -/
def zeroDin : Din := Vector.replicate 48 0

/-- The DIN of the request in flight. With none in flight, which no step reaches, it reads as zeros (log 4). -/
def State.din (s : State) : Din :=
  match s.inFlight with
  | some r => r.din
  | none => zeroDin

/-! ### A request as bits -/

/-- The request whose 49 bytes (CMD, then DIN) are the bits of `w`, CMD in bits 7:0; bits from `nbits` up are 0. -/
def Request.ofBits (nbits w : Nat) : Request where
  cmd := BitVec.ofNat 8 (w % 2 ^ nbits)
  din := Vector.ofFn fun i => BitVec.ofNat 8 ((w % 2 ^ nbits) >>> (8 * (i.val + 1)))

end Sys2Proof.Machine
end

