-- ==== Sys2Proof/Machine/Aes.lean ====
section
/-!
DEFINITION. The cipher core: GF(2^8), the S-box, the round steps, AES_Encrypt and KeyExpansion
(40_aes_core.md, R100 to R126). These are total functions with no error path; none of them touches State.
-/
namespace Sys2Proof.Machine

/-! ### The field GF(2^8) (R101, R102) -/

/-- The term `x` of a sum over GF(2), present when its coefficient is 1. -/
def bitTerm {n : Nat} (coefficient : Bool) (x : BitVec n) : BitVec n := if coefficient then x else 0

/-- The product of two polynomials over GF(2), before reduction: the sum of `a x^i` over the powers of b (R101). -/
def polyMul (a b : Byte) : BitVec 16 :=
  (List.range 8).foldl (fun p i => p ^^^ bitTerm (b.getLsbD i) (a.setWidth 16 <<< i)) 0

/-- Reduction modulo `m(x) = x^8 + x^4 + x^3 + x + 1`, from the power 14 down to the power 8 (R101). -/
def polyMod (p : BitVec 16) : Byte :=
  ((List.range 7).foldl
    (fun q i => q ^^^ bitTerm (q.getLsbD (14 - i)) (0x11B#16 <<< (6 - i))) p).setWidth 8

/-- Field multiplication, written `a • b` in the spec (R101). -/
def gfMul (a b : Byte) : Byte := polyMod (polyMul a b)

/-- `a • a`. -/
def gfSquare (a : Byte) : Byte := gfMul a a

/-- The multiplicative inverse, 0x00 for 0x00 (R101), computed as the power 254 = 2 + 4 + 8 + 16 + 32 + 64 + 128. -/
def gfInv (a : Byte) : Byte :=
  ((List.range 7).foldl (fun (acc : Byte × Byte) _ => (gfMul acc.1 (gfSquare acc.2), gfSquare acc.2)) (1, a)).1

/-- Multiplication by 0x02 (R102). -/
def xtime (a : Byte) : Byte := if a.getLsbD 7 then (a <<< 1) ^^^ 0x1B#8 else a <<< 1

/-- Multiplication by 0x03, `xtime(a) ^ a` (R102). -/
def xtime3 (a : Byte) : Byte := xtime a ^^^ a

/-! ### The S-box (R103, R104) -/

/-- The S-box table, one row of sixteen bytes per high nibble, column 0 leftmost (R104). -/
def sboxRows : List Word :=
  [0x637c777bf26b6fc53001672bfed7ab76, 0xca82c97dfa5947f0add4a2af9ca472c0,
   0xb7fd9326363ff7cc34a5e5f171d83115, 0x04c723c31896059a071280e2eb27b275,
   0x09832c1a1b6e5aa0523bd6b329e32f84, 0x53d100ed20fcb15b6acbbe394a4c58cf,
   0xd0efaafb434d338545f9027f503c9fa8, 0x51a3408f929d38f5bcb6da2110fff3d2,
   0xcd0c13ec5f974417c4a77e3d645d1973, 0x60814fdc222a908846eeb814de5e0bdb,
   0xe0323a0a4906245cc2d3ac629195e479, 0xe7c8376d8dd54ea96c56f4ea657aae08,
   0xba78252e1ca6b4c6e8dd741f4bbd8b8a, 0x703eb5664803f60e613557b986c11d9e,
   0xe1f8981169d98e949b1e87e9ce5528df, 0x8ca1890dbfe6426841992d0fb054bb16]

/-- `S(x)`: row the high nibble of x, column the low nibble (R104). -/
def sbox (x : Byte) : Byte :=
  (sboxRows.getD (x.extractLsb' 4 4).toNat 0).extractLsb' (8 * (15 - (x.extractLsb' 0 4).toNat)) 8

/-- The affine map of the S-box, with c = 0x63 (R103). -/
def sboxAffine (b : Byte) : Byte :=
  b ^^^ b.rotateLeft 1 ^^^ b.rotateLeft 2 ^^^ b.rotateLeft 3 ^^^ b.rotateLeft 4 ^^^ 0x63#8

/-! ### The cipher state and the round steps (R105 to R111) -/

/-- `s[r][c]`, which is byte `r + 4c` of the state (R105). -/
def cell (st : Block) (r c : Fin 4) : Byte := st[r.val + 4 * c.val]

/-- The state whose cell in row r and column c is `f r c` (R105). -/
def ofCells (f : Fin 4 → Fin 4 → Byte) : Block :=
  Vector.ofFn fun i => f ⟨i.val % 4, by omega⟩ ⟨i.val / 4, by omega⟩

/-- SubBytes (R106). -/
def subBytes (st : Block) : Block := Vector.ofFn fun i => sbox st[i.val]

/-- ShiftRows: `s'[r][c] = s[r][(c + r) mod 4]` (R107). -/
def shiftRows (st : Block) : Block := ofCells fun r c => cell st r (c + r)

/-- One column of MixColumns: the byte b_r from (a0, a1, a2, a3) (R108). -/
def mixColumn (a0 a1 a2 a3 : Byte) : Fin 4 → Byte
  | 0 => xtime a0 ^^^ xtime3 a1 ^^^ a2 ^^^ a3
  | 1 => a0 ^^^ xtime a1 ^^^ xtime3 a2 ^^^ a3
  | 2 => a0 ^^^ a1 ^^^ xtime a2 ^^^ xtime3 a3
  | 3 => xtime3 a0 ^^^ a1 ^^^ a2 ^^^ xtime a3

/-- MixColumns (R108). -/
def mixColumns (st : Block) : Block :=
  ofCells fun r c => mixColumn (cell st 0 c) (cell st 1 c) (cell st 2 c) (cell st 3 c) r

/-- AddRoundKey (R109). -/
def addRoundKey (st k : Block) : Block := Vector.ofFn fun i => st[i.val] ^^^ k[i.val]

/-- A full round (R110). -/
def fullRound (st k : Block) : Block := addRoundKey (mixColumns (shiftRows (subBytes st))) k

/-- The final round, without MixColumns (R111). -/
def finalRound (st k : Block) : Block := addRoundKey (shiftRows (subBytes st)) k

/-! ### The cipher (R112) -/

/-- The cipher state after the initial whitening and full rounds 1 to r (R112). -/
def roundState (rk : Nat → Block) (blk : Block) : Nat → Block
  | 0 => addRoundKey blk (rk 0)
  | r + 1 => fullRound (roundState rk blk r) (rk (r + 1))

/-- `AES_Encrypt(rk[0..Nr], Nr, blk)`: whitening, rounds 1 to Nr - 1, the final round (R112). -/
def aesEncrypt (rk : Nat → Block) (nr : Nat) (blk : Block) : Block :=
  finalRound (roundState rk blk (nr - 1)) (rk nr)

/-! ### Key expansion (R120 to R125) -/

/-- The key word of four zero bytes: what a position outside the schedule reads as; no rule reads one. -/
def zeroKeyWord : KeyWord := Vector.replicate 4 0

/-- RotWord (R120). -/
def rotWord (a : KeyWord) : KeyWord := #v[a[1], a[2], a[3], a[0]]

/-- SubWord (R121). -/
def subWord (a : KeyWord) : KeyWord := Vector.ofFn fun i => sbox a[i.val]

/-- XOR of two key words, byte by byte (R123). -/
def xorWord (a b : KeyWord) : KeyWord := Vector.ofFn fun i => a[i.val] ^^^ b[i.val]

/-- `RC[1] = 0x01`, `RC[j] = xtime(RC[j-1])`; there is no RC[0], and it is never read (R122). -/
def roundConstant : Nat → Byte
  | 0 => 0x00
  | 1 => 0x01
  | j + 1 => xtime (roundConstant j)

/-- `Rcon[j] = (RC[j], 0x00, 0x00, 0x00)` (R122). -/
def rcon (j : Nat) : KeyWord := #v[roundConstant j, 0, 0, 0]

/-- What the recurrence XORs into `w[i-Nk]`: the word `temp` made from `w[i-1]` (R123). -/
def scheduleTemp (nk i : Nat) (prev : KeyWord) : KeyWord :=
  if i % nk = 0 then xorWord (subWord (rotWord prev)) (rcon (i / nk))
  else if 6 < nk ∧ i % nk = 4 then subWord prev
  else prev

/-- The next word `w[i]`, i the number of words made so far (R123). -/
def nextKeyWord (nk : Nat) (w : List KeyWord) : KeyWord :=
  xorWord (w.getD (w.length - nk) zeroKeyWord)
    (scheduleTemp nk w.length (w.getD (w.length - 1) zeroKeyWord))

/-- `n` further words of the schedule (R123). -/
def extendSchedule (nk : Nat) : Nat → List KeyWord → List KeyWord
  | 0, w => w
  | n + 1, w => extendSchedule nk n (w ++ [nextKeyWord nk w])

/-- The first Nk words: the key itself (R123). -/
def keyToWords (nk : Nat) (key : List Byte) : List KeyWord :=
  (List.range nk).map fun i => Vector.ofFn fun j => key.getD (4 * i + j.val) 0

/-- `KeyExpansion(key, Nk)`: the words `w[0 .. 4(Nr+1)-1]`, with Nr = Nk + 6 (R123). -/
def keyExpansion (nk : Nat) (key : List Byte) : List KeyWord :=
  extendSchedule nk (4 * (nk + 6 + 1) - nk) (keyToWords nk key)

/-- Round key r as 16 bytes: byte `4j + t` is byte t of `w[4r + j]` (R124). -/
def roundKeyBytes (w : List KeyWord) (r : Nat) : Block :=
  Vector.ofFn fun i => (w.getD (4 * r + i.val / 4) zeroKeyWord)[i.val % 4]

/-- The fifteen registers a SEED writes: `fromLE(rk[r])` for r ≤ Nr, and 0 above (R124, R141). -/
def seedRoundKeys (var : BitVec 2) (key : List Byte) : Vector Word 15 :=
  Vector.ofFn fun r =>
    if r.val ≤ nrOf var then fromLEBlock (roundKeyBytes (keyExpansion (nkOf var) key) r.val) else 0

end Sys2Proof.Machine
end

