-- ==== Sys2Proof/Config.lean ====
section
/-!
DEFINITION. What is fixed for the block and is not state.
The spec has no free value: every result of every command is stated, so no opaque constant stands here.
Its two open parameters (R7) are not constants either: N_INSTANCES is the argument of `Platform.reset`
(Machine/Platform.lean), and LAT_<cmd> is time, which no rule reads (R227).
-/
namespace Sys2Proof.Config

/-- HWACC: the hardwired constant 1 that STATUS reports in bit 0 (R27). -/
def hwacc : Bool := true

end Sys2Proof.Config
end

