-- ==== Sys2Proof/Machine/Flags.lean ====
section
/-!
DEFINITION. Status information. The block has no condition flags (R26); what it reports is the STATUS code
of a response (R200) and the status word of the STATUS command (R163).
-/
namespace Sys2Proof.Machine

/-- The 8-bit code of a status (R200). -/
def Status.code : Status → Byte
  | .ok => 0x00
  | .errIllegal => 0x01
  | .errUnseeded => 0x02
  | .errVariant => 0x03
  | .errRange => 0x04

/-- The STATUS byte of a response (R60). -/
def Response.statusByte (r : Response) : Byte := r.status.code

/-- The 16 DOUT bytes of a response, `LE_128(dout)` (R41). -/
def Response.doutBytes (r : Response) : Block := le128 r.dout

/-- The status word `zext_128(VAR || SEEDED || HWACC)`: bit 0 HWACC, bit 1 SEEDED, bits 3:2 VAR (R163). -/
def statusWord (s : State) : Word :=
  (s.var ++ BitVec.ofBool s.seeded ++ BitVec.ofBool Config.hwacc).setWidth 128

end Sys2Proof.Machine
end

