-- ==== Sys2Proof/Machine/Ops.lean ====
section
/-!
DEFINITION. The named operations every command is built from: reading and writing the registers of R20,
the checks of R140, responding, raising an error, and the port's own events.
The block has no memory operations (R40), no trap entry and no trap return (R209): raising an error is its
whole exception mechanism, and nothing returns from one.
-/
namespace Sys2Proof.Machine

/-! ### Registers -/

/-- RK[i], 0 above the last slot; no command reads above it (R112, R204). -/
def State.roundKey (s : State) (i : Nat) : Word := s.rk.toList.getD i 0

/-- Round key i as the 16-byte string `LE_128(RK[i])` (R112). -/
def State.roundKeyBlock (s : State) (i : Nat) : Block := le128 (s.roundKey i)

/-- `CTR <- c`. -/
def State.setCtr (s : State) (c : Word) : State := { s with ctr := c }

/-- SEED's commit: every register is written and the block is seeded (R141). -/
def State.loadSeed (s : State) (var : BitVec 2) (rk : Vector Word 15) (c : Word) : State :=
  { s with seeded := true, var := var, rk := rk, ctr := c }

/-- Every register of R20 to its reset value (R164, R221). -/
def State.clear (s : State) : State :=
  { s with seeded := false, var := 0, rk := Vector.replicate 15 0, ctr := 0 }

/-! ### Encryption with the registers -/

/-- The block's cipher: AES_Encrypt under RK[0..Nr] of the active variant (R112, R113). -/
def State.encryptBlock (s : State) (blk : Block) : Block :=
  aesEncrypt s.roundKeyBlock (nrOf s.var) blk

/-! ### Responding and raising (R10) -/

/-- The command ends with this response, and its request is dropped (R52). -/
def State.respond (s : State) (st : Status) (dout : Word) : State :=
  { s with inFlight := none, response := some ⟨st, dout⟩ }

/-- `respond(OK, dout)`. -/
def respondOk (dout : Word) (s : State) : Result := .next (s.respond .ok dout)

/-- `raise ERR_X`: the command ends with that status and DOUT = 0, and changes no register (R205). -/
def raise (e : Status) (s : State) : Result := .next (s.respond e 0)

/-- A CMD that decodes to ILLEGAL: `raise ERR_ILLEGAL`, whatever the reason (R140, R201). -/
def raiseIllegal (_why : Illegal) (s : State) : Result := raise .errIllegal s

/-! ### Checks (R140) -/

/-- `if SEEDED == 0: raise ERR_UNSEEDED` (R202). -/
def whenSeeded (s : State) (go : Result) : Result :=
  if s.seeded then go else raise .errUnseeded s

/-- `if CW == 64: raise ERR_VARIANT` (R203). -/
def whenWideCounter (s : State) (go : Result) : Result :=
  if cwOf s.var = 64 then raise .errVariant s else go

/-- `if idx > Nr: raise ERR_RANGE` (R204). -/
def whenInRange (idx : BitVec 4) (s : State) (go : Result) : Result :=
  if nrOf s.var < idx.toNat then raise .errRange s else go

/-! ### The port's events -/

/-- The port takes request `r`; `rest` is what the outside world does after it (R49). -/
def State.accept (s : State) (r : Request) (rest : List PortInput) : State :=
  { s with inputs := rest, inFlight := some r }

/-- No request: nothing happens (R210, R215). -/
def idle (s : State) : Result := .next s

/-- RESET: every register to its reset value; no command is in flight and no response stands (R220, R221). -/
def takeReset (rest : List PortInput) (s : State) : Result :=
  .next { s.clear with inputs := rest, inFlight := none, response := none }

/-- RESET while `r` is in flight: `r` was accepted and is dropped with no response and none of its changes (R220). -/
def dropInFlight (r : Request) (rest : List PortInput) (s : State) : Result :=
  takeReset rest (s.accept r rest)

end Sys2Proof.Machine
end

