-- ==== Sys2Proof/Machine/Control.lean ====
section
/-!
DEFINITION. The control and test commands: NOP, ENCRYPT, READ_RK, STATUS and ZEROIZE (42_control_commands.md).
-/
namespace Sys2Proof.Machine

/-- NOP (R160). -/
def execNop (s : State) : Result := respondOk 0 s

/-- ENCRYPT: encrypt `DIN[0..15]` under the current round keys (R161). -/
def execEncrypt (s : State) : Result :=
  whenSeeded s (respondOk (fromLEBlock (s.encryptBlock (plaintext s.din))) s)

/-- READ_RK: return RK[idx], for idx up to Nr (R162). -/
def execReadRk (idx : BitVec 4) (s : State) : Result :=
  whenSeeded s (whenInRange idx s (respondOk (s.roundKey idx.toNat) s))

/-- STATUS: return the status word (R163). -/
def execStatus (s : State) : Result := respondOk (statusWord s) s

/-- ZEROIZE: every register to 0, unseeded (R164). -/
def execZeroize (s : State) : Result := respondOk 0 s.clear

end Sys2Proof.Machine
end

