-- ==== Sys2Proof/Machine/Ctr.lean ====
section
/-!
DEFINITION. The CTR state machine: SEED, NEXT, COUNTER, JUMP and LONG_JUMP (41_ctr_commands.md).
Each meaning is the check and commit phases of R140; decode has run before it.
-/
namespace Sys2Proof.Machine

/-- `CTR_INC(c, CW)`: with CW = 64 only the low half counts, and its carry is dropped (R143). -/
def ctrInc (c : Word) (cw : Nat) : Word :=
  if cw = 64 then joinHalves (c.extractLsb' 64 64) (c.extractLsb' 0 64 + 1#64) else c + 1#128

/-- 2^64, what a JUMP adds to CTR (R145). In the sums below the distance stands first, so that a proof by
computation meets the register, and not the distance, as the number it would count down. -/
def jumpDistance : Word := 0x00000000000000010000000000000000

/-- 2^96, what a LONG_JUMP adds to CTR (R146). -/
def longJumpDistance : Word := 0x00000001000000000000000000000000

/-- SEED: load key and counter from DIN, expand the key, select the variant (R141). -/
def execSeed (arg : BitVec 4) (s : State) : Result :=
  respondOk 0
    (s.loadSeed (seedVar arg)
      (seedRoundKeys (seedVar arg) (seedKey (seedVar arg) s.din))
      (seedCtr (seedVar arg) s.din))

/-- NEXT: encrypt the counter, then advance it (R142). -/
def execNext (s : State) : Result :=
  whenSeeded s
    (respondOk (fromLEBlock (s.encryptBlock (le128 s.ctr)))
      (s.setCtr (ctrInc s.ctr (cwOf s.var))))

/-- COUNTER: the stream position, zero-extended for a C64 variant (R144). -/
def execCounter (s : State) : Result :=
  whenSeeded s
    (respondOk (if cwOf s.var = 64 then (s.ctr.extractLsb' 0 64).setWidth 128 else s.ctr) s)

/-- JUMP: return the counter and advance it by 2^64 modulo 2^128 (R145). -/
def execJump (s : State) : Result :=
  whenSeeded s
    (whenWideCounter s
      (respondOk s.ctr (s.setCtr (jumpDistance + s.ctr))))

/-- LONG_JUMP: return the counter and advance it by 2^96 modulo 2^128 (R146). -/
def execLongJump (s : State) : Result :=
  whenSeeded s
    (whenWideCounter s
      (respondOk s.ctr (s.setCtr (longJumpDistance + s.ctr))))

end Sys2Proof.Machine
end

