-- ==== Sys2Proof/Machine/Dispatch.lean ====
section
/-!
DEFINITION. One arm per command: each calls the meaning of its own (R65).
-/
namespace Sys2Proof.Machine

def exec (i : Instr) (s : State) : Host.Outcome State Fault Refusal :=
  match i with
  | .nop => Sys2Proof.Machine.execNop s
  | .seed arg => Sys2Proof.Machine.execSeed arg s
  | .next => Sys2Proof.Machine.execNext s
  | .counter => Sys2Proof.Machine.execCounter s
  | .jump => Sys2Proof.Machine.execJump s
  | .longJump => Sys2Proof.Machine.execLongJump s
  | .encrypt => Sys2Proof.Machine.execEncrypt s
  | .readRk idx => Sys2Proof.Machine.execReadRk idx s
  | .zeroize => Sys2Proof.Machine.execZeroize s
  | .status => Sys2Proof.Machine.execStatus s

end Sys2Proof.Machine
end

