-- ==== Sys2Proof/Machine/Step.lean ====
section
/-!
DEFINITION. One step of a block: it takes the next thing the outside world does and completes it.
A command is one atomic step: accept, decode, check, commit, respond (R45, R140, R227).
-/
namespace Sys2Proof.Machine

/-- The step. With nothing on the port the block is idle. -/
def step (s : State) : Host.Outcome State Fault Refusal :=
  match s.inputs with
  | [] => idle s
  | .reset :: rest => takeReset rest s
  | .resetInFlight r :: rest => dropInFlight r rest s
  | .request r :: rest =>
    match decode r.cmd with
    | .command i => exec i (s.accept r rest)
    | .illegal why => raiseIllegal why (s.accept r rest)

/-- `s` with one request put first on the port. -/
def State.withRequest (s : State) (r : Request) : State :=
  { s with inputs := .request r :: s.inputs }

/-- `s` with the request whose bits are `w` (CMD in bits 7:0, DIN above) put where the next step takes it.
The block fetches nothing (R52): its program is the host's request stream (log 5). -/
def State.withFetchWord (s : State) (nbits w : Nat) : State :=
  s.withRequest (Request.ofBits nbits w)

end Sys2Proof.Machine
end

