-- ==== Sys2Proof/Machine/Session.lean ====
section
/-!
DEFINITION. A host's use of one block: one request at a time, in order (R48, R49).
-/
namespace Sys2Proof.Machine

/-- The block after the host's request `r` has been served: one step with `r` first on the port.
A step never faults (`Fault` is empty); a refusal would leave the block as it was. -/
def State.perform (s : State) (r : Request) : State :=
  match step (s.withRequest r) with
  | .next t => t
  | .fault f => nomatch f
  | .refused _ => s

/-- The block after a sequence of requests: the left fold of the commands over them (R48). -/
def State.performAll (s : State) (rs : List Request) : State := rs.foldl State.perform s

/-- The responses to a sequence of requests, in order. -/
def State.responses (s : State) : List Request → List Response
  | [] => []
  | r :: rs => (s.perform r).response.toList ++ (s.perform r).responses rs

/-- DIN that begins with `data` and is 0 after it (R71). -/
def padDin (data : List Byte) : Din := Vector.ofFn fun i => data.getD i.val 0

/-- The request for command `i` with DIN bytes `data`, zeros after them (R71). -/
def requestOf (i : Instr) (data : List Byte) : Request := ⟨encode i, padDin data⟩

/-- The SEED request for a variant and its seed bytes (R62, R71). -/
def seedRequest (var : BitVec 2) (seed : List Byte) : Request :=
  requestOf (.seed (var.setWidth 4)) seed

/-- `LE_128(v)` as a byte list, for a seed's counter field (R148). -/
def leWordBytes (v : Word) : List Byte := (le128 v).toList

/-- The request that makes the snapshot generator on a second block: `SEED.<VAR> key || LE_128(k)` (R148). -/
def cloneRequest (var : BitVec 2) (key : List Byte) (k : Word) : Request :=
  seedRequest var (key ++ leWordBytes k)

end Sys2Proof.Machine
end

