-- ==== Sys2Proof/Machine/Api.lean ====
section
/-!
DEFINITION. The pseudo-commands of R72: each call of the source's API and the requests it expands to.
Drawing entropy is the host's own action, so an entropy call carries the bytes the host drew.
-/
namespace Sys2Proof.Machine

/-- A call of the source's API on one generator (R72). -/
inductive ApiCall where
  | fromSeed (var : BitVec 2) (seed : List Byte)
  | reseed (var : BitVec 2) (seed : List Byte)
  | fromEntropy (var : BitVec 2) (drawn : List Byte)
  | seedFromEntropy (var : BitVec 2) (drawn : List Byte)
  | next
  | counter
  | jump
  | longJump
  | drop
  | isHardwareAccelerated
  | fillBytes (n : Nat)
  deriving DecidableEq, Repr

/-- The requests a call sends to its own block (R72). -/
def ApiCall.requests : ApiCall → List Request
  | .fromSeed var seed => [seedRequest var seed]
  | .reseed var seed => [seedRequest var seed]
  | .fromEntropy var drawn => [seedRequest var drawn]
  | .seedFromEntropy var drawn => [seedRequest var drawn]
  | .next => [requestOf .next []]
  | .counter => [requestOf .counter []]
  | .jump => [requestOf .jump []]
  | .longJump => [requestOf .longJump []]
  | .drop => [requestOf .zeroize []]
  | .isHardwareAccelerated => [requestOf .status []]
  | .fillBytes n => List.replicate ((n + 15) / 16) (requestOf .next [])

/-- The request a jump's caller sends to a second block to get `g1`, from the key it kept and the DOUT k (R72, R148). -/
def jumpSnapshot (var : BitVec 2) (key : List Byte) (r : Response) : Request :=
  cloneRequest var key r.dout

/-- `counter()`: DOUT, the low 64 bits only for a C64 variant (R72). -/
def counterValue (var : BitVec 2) (r : Response) : Nat :=
  if cwOf var = 64 then (r.dout.extractLsb' 0 64).toNat else r.dout.toNat

/-- `is_hardware_accelerated()`: DOUT[0] (R72). -/
def hardwareAccelerated (r : Response) : Bool := r.dout.getLsbD 0

/-- `fill_bytes(buf)` of n bytes: the DOUT bytes of the NEXTs in order (R43, R72). -/
def filledBytes (n : Nat) (rs : List Response) : List Byte :=
  (rs.flatMap fun r => r.doutBytes.toList).take n

end Sys2Proof.Machine
end

