-- ==== Sys2Proof/Machine/Asm.lean ====
section
/-!
DEFINITION. The assembler syntax of R71: one command per line, and the encoding of each line to `(CMD, DIN)`.
-/
namespace Sys2Proof.Machine

/-- One line of assembler text, parsed (R71). -/
inductive AsmLine where
  | nop
  | seed (var : BitVec 2) (bytes : List Byte)
  | next
  | counter
  | jump
  | longJump
  | encrypt (plain : List Byte)
  | readRk (idx : Nat)
  | zeroize
  | status
  /-- `.word <hh>`, with the DIN of an optional `.din <hex>` after it on the line (log 8). -/
  | word (cmd : Byte) (din : List Byte)
  deriving DecidableEq, Repr

/-- The operand lengths and ranges of R71. -/
def AsmLine.wf : AsmLine → Bool
  | .seed var bytes => bytes.length == seedBytesOf var
  | .encrypt plain => plain.length == 16
  | .readRk idx => idx ≤ 15
  | .word _ din => din.length ≤ 48
  | .nop | .next | .counter | .jump | .longJump | .zeroize | .status => true

/-- The request of a line; DIN bytes not written are 0 (R71). -/
def AsmLine.request : AsmLine → Request
  | .nop => requestOf .nop []
  | .seed var bytes => seedRequest var bytes
  | .next => requestOf .next []
  | .counter => requestOf .counter []
  | .jump => requestOf .jump []
  | .longJump => requestOf .longJump []
  | .encrypt plain => requestOf .encrypt plain
  | .readRk idx => requestOf (.readRk (BitVec.ofNat 4 idx)) []
  | .zeroize => requestOf .zeroize []
  | .status => requestOf .status []
  | .word cmd din => ⟨cmd, padDin din⟩

/-- The assembler refuses a line whose operands do not fit. -/
def AsmLine.assemble (l : AsmLine) : Option Request := if l.wf then some l.request else none

/-! ### Reading text -/

/-- The pieces of a text between separator characters. -/
def splitChars (sep : Char → Bool) : List Char → List (List Char)
  | [] => [[]]
  | c :: cs =>
    match sep c, splitChars sep cs with
    | true, ws => [] :: ws
    | false, [] => [[c]]
    | false, w :: ws => (c :: w) :: ws

/-- `;` starts a comment (R71). -/
def stripComment (line : List Char) : List Char := line.takeWhile (· != ';')

/-- The tokens of a line: its pieces between spaces and tabs, less the comment (log 8). -/
def tokensOf (line : List Char) : List (List Char) :=
  (splitChars (fun c => c == ' ' || c == '\t' || c == '\r') (stripComment line)).filter (!·.isEmpty)

/-- The value of a hex digit, in either case (log 8). -/
def hexDigit (c : Char) : Option Nat :=
  if '0' ≤ c ∧ c ≤ '9' then some (c.toNat - '0'.toNat)
  else if 'a' ≤ c ∧ c ≤ 'f' then some (c.toNat - 'a'.toNat + 10)
  else if 'A' ≤ c ∧ c ≤ 'F' then some (c.toNat - 'A'.toNat + 10)
  else none

/-- Hex digits in pairs, byte 0 first, the high digit of a byte first. -/
def hexBytes : List Char → Option (List Byte)
  | [] => some []
  | [_] => none
  | a :: b :: rest =>
    match hexDigit a, hexDigit b, hexBytes rest with
    | some x, some y, some bs => some (BitVec.ofNat 8 (16 * x + y) :: bs)
    | _, _, _ => none

/-- A decimal number with at least one digit. -/
def decimalOf (cs : List Char) : Option Nat :=
  if !cs.isEmpty && cs.all (fun c => decide ('0' ≤ c ∧ c ≤ '9')) then
    some (cs.foldl (fun n c => 10 * n + (c.toNat - '0'.toNat)) 0)
  else none

/-- The variant names of R2. -/
def variantOf (name : List Char) : Option (BitVec 2) :=
  if name = "A128C64".toList then some 0b00
  else if name = "A128C128".toList then some 0b01
  else if name = "A256C64".toList then some 0b10
  else if name = "A256C128".toList then some 0b11
  else none

/-- A command without operand (R71). -/
def plainLineOf (name : List Char) : Option AsmLine :=
  if name = "NOP".toList then some .nop
  else if name = "NEXT".toList then some .next
  else if name = "COUNTER".toList then some .counter
  else if name = "JUMP".toList then some .jump
  else if name = "LONG_JUMP".toList then some .longJump
  else if name = "ZEROIZE".toList then some .zeroize
  else if name = "STATUS".toList then some .status
  else none

/-- `.word <hh>` with the DIN bytes given. -/
def wordLineOf (hh : List Char) (din : List Byte) : Option AsmLine :=
  match hexBytes hh with
  | some [cmd] => some (.word cmd din)
  | _ => none

/-- A command with one operand (R71). -/
def operandLineOf (name operand : List Char) : Option AsmLine :=
  if name = "ENCRYPT".toList then (hexBytes operand).map .encrypt
  else if name = "READ_RK".toList then (decimalOf operand).map .readRk
  else if name = ".word".toList then wordLineOf operand []
  else
    match splitChars (· == '.') name with
    | [mnemonic, variant] =>
      if mnemonic = "SEED".toList then
        match variantOf variant, hexBytes operand with
        | some var, some bytes => some (.seed var bytes)
        | _, _ => none
      else none
    | _ => none

/-- A line of text: no command for a blank or comment line, `none` for a line R71 does not spell. -/
def parseLine (line : List Char) : Option (List AsmLine) :=
  match tokensOf line with
  | [] => some []
  | [name] => (plainLineOf name).map ([·])
  | [name, operand] => (operandLineOf name operand).map ([·])
  | [name, operand, directive, hex] =>
    if name = ".word".toList ∧ directive = ".din".toList then
      match hexBytes hex with
      | some din => (wordLineOf operand din).map ([·])
      | none => none
    else none
  | _ => none

/-- Every element, or `none` if one is missing. -/
def allSome {α : Type} : List (Option α) → Option (List α)
  | [] => some []
  | none :: _ => none
  | some a :: rest => (allSome rest).map (a :: ·)

/-- The assembler: a text to the requests it stands for, in order (R71). -/
def assembleText (text : List Char) : Option (List Request) :=
  match allSome ((splitChars (· == '\n') text).map parseLine) with
  | some lines => allSome (lines.flatten.map AsmLine.assemble)
  | none => none

end Sys2Proof.Machine
end

