-- ==== Sys2Proof/Machine/Platform.lean ====
section
/-!
DEFINITION. A platform of N_INSTANCES independent blocks (R7, R30, R50, R213).
The schedule (which block is served next) is the host's: it is an argument, so a claim holds for every order.
-/
namespace Sys2Proof.Machine

/-- The blocks of a platform; block k is entry k. -/
structure Platform where
  blocks : List State
  deriving DecidableEq, Repr

/-- The outcome of a platform's step. -/
abbrev PlatformResult := Host.Outcome Platform Fault Refusal

/-- N_INSTANCES blocks, each at its reset state (R213). -/
def Platform.reset (nInstances : Nat) : Platform := ⟨List.replicate nInstances State.reset⟩

/-- Replace block k by the outcome of its own step; the other blocks are untouched (R30). -/
def Platform.put (p : Platform) (k : Nat) : Result → PlatformResult
  | .next s => .next ⟨p.blocks.set k s⟩
  | .fault f => .fault f
  | .refused r => .refused r

/-- One step of block k. A run on a platform without that block is refused (R208, I3). -/
def Platform.stepAt (p : Platform) (k : Nat) : PlatformResult :=
  match p.blocks[k]? with
  | some s => p.put k (step s)
  | none => .refused .noBlockPresent

/-- The host sends request `r` to block k, which serves it. -/
def Platform.command (p : Platform) (k : Nat) (r : Request) : PlatformResult :=
  match p.blocks[k]? with
  | some s => p.put k (step (s.withRequest r))
  | none => .refused .noBlockPresent

/-- One platform outcome after another. -/
def andThen (o : PlatformResult) (f : Platform → PlatformResult) : PlatformResult :=
  match o with
  | .next p => f p
  | .fault e => .fault e
  | .refused r => .refused r

/-- A schedule of requests, each to the block it names. -/
def Platform.commands (p : Platform) : List (Nat × Request) → PlatformResult
  | [] => .next p
  | (k, r) :: rest => andThen (p.command k r) fun q => q.commands rest

end Sys2Proof.Machine
end

