-- ==== Sys2Proof/Safety.lean ====
section
/-!
DEFINITION. What claims call a legal state and a safe use of the block.
-/
namespace Sys2Proof

/-! ### Kinds of command -/

/-- The commands that change no register (R47). -/
def Instr.isReadOnly : Instr → Bool
  | .nop | .counter | .encrypt | .readRk _ | .status => true
  | .seed _ | .next | .jump | .longJump | .zeroize => false

/-- The commands that need a seeded block (R202). -/
def Instr.needsSeed : Instr → Bool
  | .next | .counter | .jump | .longJump | .encrypt | .readRk _ => true
  | .nop | .seed _ | .status | .zeroize => false

/-- The commands that only a C128 variant has (R203). -/
def Instr.isJump : Instr → Bool
  | .jump | .longJump => true
  | .nop | .seed _ | .next | .counter | .encrypt | .readRk _ | .status | .zeroize => false

/-- How many bytes of DIN, from DIN[0] on, a command uses (R67). -/
def Instr.dinUsed : Instr → Nat
  | .seed arg => Machine.seedBytesOf (Machine.seedVar arg)
  | .encrypt => 16
  | .nop | .next | .counter | .jump | .longJump | .readRk _ | .zeroize | .status => 0

/-- Whether a command carries a round-key index above the active Nr (R204). -/
def Instr.outOfRange (i : Instr) (s : Machine.State) : Bool :=
  match i with
  | .readRk idx => decide (Machine.nrOf s.var < idx.toNat)
  | .nop | .seed _ | .next | .counter | .jump | .longJump | .encrypt | .zeroize | .status => false

end Sys2Proof

namespace Sys2Proof.Machine

/-- RK holds the key expansion of some key of the variant's length, and 0 above Nr (R23). -/
def KeyDerived (s : State) : Prop :=
  ∃ key : List Byte, key.length = keyBytesOf s.var ∧
    (∀ i : Fin 15, i.val ≤ nrOf s.var →
      s.rk[i.val] = fromLEBlock (roundKeyBytes (keyExpansion (nkOf s.var) key) i.val)) ∧
    (∀ i : Fin 15, nrOf s.var < i.val → s.rk[i.val] = 0)

/-- The states a block can be in between commands (R21, R23, R49, R205). -/
structure Inv (s : State) : Prop where
  /-- An unseeded block holds the reset values. -/
  unseeded_is_reset : s.seeded = false → s.tuple = State.reset.tuple
  /-- A seeded block's round keys come from one key expansion. -/
  seeded_keys : s.seeded = true → KeyDerived s
  /-- No command is in flight between steps. -/
  nothing_in_flight : s.inFlight = none
  /-- A response with an error carries DOUT = 0. -/
  error_dout : ∀ r, s.response = some r → r.status ≠ .ok → r.dout = 0

/-- The counter of a stream that began at c after j NEXTs: `c_1 = c` is place 0, and each place is CTR_INC of the one
before (R149). -/
def streamCounter (var : BitVec 2) (c : Word) : Nat → Word
  | 0 => c
  | j + 1 => ctrInc (streamCounter var c j) (cwOf var)

/-- The block is at place j of the stream that a SEED of this variant, key and counter began (R149). -/
structure OnStream (var : BitVec 2) (key : List Byte) (c : Word) (j : Nat) (s : State) : Prop where
  seeded : s.seeded = true
  variant : s.var = var
  round_keys : s.rk = seedRoundKeys var key
  counter : s.ctr = streamCounter var c j

/-- The fault of the host program that a response reports, if its status is not OK (I5, I7). -/
def hostFault (s : State) : Option Status :=
  match s.response with
  | some r => if r.status = .ok then none else some r.status
  | none => none

/-- A host program is safe from `s` when every one of its requests is answered OK. -/
def safeRun : State → List Request → Bool
  | _, [] => true
  | s, r :: rs => (hostFault (s.perform r)).isNone && safeRun (s.perform r) rs

/-- The STATUS that R200 to R206 give a CMD word: the first error that applies, in the order of R206, else OK. -/
def statusFor (s : State) (cmd : Byte) : Status :=
  match decode cmd with
  | .illegal _ => .errIllegal
  | .command i =>
    if i.needsSeed && !s.seeded then .errUnseeded
    else if i.isJump && !s.var.getLsbD 0 then .errVariant
    else if i.outOfRange s then .errRange
    else .ok

/-- The command that `r` asks for, if its word is legal. -/
def Request.commandIs (r : Request) (i : Instr) : Bool := decode r.cmd == .command i

/-- `r` asks for a SEED. -/
def Request.isSeed (r : Request) : Bool :=
  match decode r.cmd with
  | .command (.seed _) => true
  | .command _ => false
  | .illegal _ => false

/-- `r` is none of SEED, JUMP, LONG_JUMP and ZEROIZE, so CTR moves only if it is NEXT (R149). -/
def Request.isQuiet (r : Request) : Bool :=
  !(r.isSeed || r.commandIs .jump || r.commandIs .longJump || r.commandIs .zeroize)

/-- `r` is neither SEED nor ZEROIZE, so the round keys stay (R126). -/
def Request.keepsKeys (r : Request) : Bool := !(r.isSeed || r.commandIs .zeroize)

/-- `t` is `s` after a command that ended with this response: the request in flight is dropped, and what the
outside world does next is as before (R49, R52). -/
def Answers (s t : State) (status : Status) (dout : Word) : Prop :=
  t.response = some ⟨status, dout⟩ ∧ t.inFlight = none ∧ t.inputs = s.inputs

/-- Command `i` ends with error `e` in state `s`: DOUT = 0 and no register changed (R205). -/
def Fails (i : Instr) (s : State) (e : Status) : Prop :=
  ∃ t, exec i s = .next t ∧ Answers s t e 0 ∧ t.tuple = s.tuple

/-- The word decodes to ILLEGAL, and a request with it, whatever its DIN and the state, ends with ERR_ILLEGAL and
DOUT = 0 and changes no register (R140, R201, R205). -/
def RaisesIllegal (cmd : Byte) : Prop :=
  (∃ why, decode cmd = .illegal why) ∧
    ∀ (s : State) (r : Request) (rest : List PortInput),
      s.inputs = .request r :: rest → r.cmd = cmd →
      ∃ t, step s = .next t ∧ t.response = some ⟨.errIllegal, 0⟩ ∧ t.inFlight = none ∧
        t.inputs = rest ∧ t.tuple = s.tuple

end Sys2Proof.Machine
end

