-- ==== Sys2Proof/Certificates/Slice0/Obligations.lean ====
section
/-!
DEFINITION. The statements about the model, one `def Obligations.<Name> : Prop` each. They state and never prove.
-/
open Sys2Proof Sys2Proof.Machine

/-! ### Encoding -/

/-- Words written out bit by bit from the encodings of R65. -/
def Obligations.WrittenWordsDecode : Prop :=
  decode 0b00000000 = .command .nop ∧
  decode 0b00010010 = .command (.seed 0b0010) ∧
  decode 0b00100000 = .command .next ∧
  decode 0b00110000 = .command .counter ∧
  decode 0b01000000 = .command .jump ∧
  decode 0b01010000 = .command .longJump ∧
  decode 0b01100000 = .command .encrypt ∧
  decode 0b01111010 = .command (.readRk 0b1010) ∧
  decode 0b10000000 = .command .zeroize ∧
  decode 0b10010000 = .command .status ∧
  decode 0b00010100 = .illegal .reservedVariantBits ∧
  decode 0b01000001 = .illegal .reservedArg ∧
  decode 0b10100000 = .illegal .reservedOpcode

/-- R70: decode by OPC and ARG, and the count of legal words. -/
def Obligations.DecodeFollowsOpcodeMap : Prop :=
  (∀ arg : BitVec 4,
    decode (0x0#4 ++ arg) = (if arg = 0 then .command .nop else .illegal .reservedArg) ∧
    decode (0x1#4 ++ arg) =
      (if arg.extractLsb' 2 2 = 0#2 then .command (.seed arg) else .illegal .reservedVariantBits) ∧
    decode (0x2#4 ++ arg) = (if arg = 0 then .command .next else .illegal .reservedArg) ∧
    decode (0x3#4 ++ arg) = (if arg = 0 then .command .counter else .illegal .reservedArg) ∧
    decode (0x4#4 ++ arg) = (if arg = 0 then .command .jump else .illegal .reservedArg) ∧
    decode (0x5#4 ++ arg) = (if arg = 0 then .command .longJump else .illegal .reservedArg) ∧
    decode (0x6#4 ++ arg) = (if arg = 0 then .command .encrypt else .illegal .reservedArg) ∧
    decode (0x7#4 ++ arg) = .command (.readRk arg) ∧
    decode (0x8#4 ++ arg) = (if arg = 0 then .command .zeroize else .illegal .reservedArg) ∧
    decode (0x9#4 ++ arg) = (if arg = 0 then .command .status else .illegal .reservedArg)) ∧
  (∀ opc arg : BitVec 4, 0xA#4 ≤ opc → decode (opc ++ arg) = .illegal .reservedOpcode) ∧
  ((List.range 256).filter fun w => (decodeTableWord 8 w).isSome).length = 28

/-- R201: the words that raise ERR_ILLEGAL, and that they raise it in every state. -/
def Obligations.IllegalWordsRaiseErrIllegal : Prop :=
  ∀ cmd : Byte,
    ((0xA0 ≤ cmd.toNat) ∨ (0x14 ≤ cmd.toNat ∧ cmd.toNat ≤ 0x1F) ∨
      (cmd.toNat / 16 ∈ [0x0, 0x2, 0x3, 0x4, 0x5, 0x6, 0x8, 0x9] ∧ cmd.toNat % 16 ≠ 0) →
        RaisesIllegal cmd) ∧
    (¬ ((0xA0 ≤ cmd.toNat) ∨ (0x14 ≤ cmd.toNat ∧ cmd.toNat ≤ 0x1F) ∨
      (cmd.toNat / 16 ∈ [0x0, 0x2, 0x3, 0x4, 0x5, 0x6, 0x8, 0x9] ∧ cmd.toNat % 16 ≠ 0)) →
        ∃ i, decode cmd = .command i)

/-- Decoder and encoder agree in both directions, over all 256 words and all terms of `Instr`. -/
def Obligations.DecodeAndEncodeAgree : Prop :=
  ∀ (cmd : Byte) (i : Instr), decode cmd = .command i ↔ i.WellFormed ∧ encode i = cmd

/-! ### The step -/

/-- A step with a legal request first on the port runs the decoded command, with that request in flight. -/
def Obligations.StepRunsDecodedCommand : Prop :=
  ∀ (s : State) (r : Request) (rest : List PortInput) (i : Instr),
    s.inputs = .request r :: rest → decode r.cmd = .command i →
    step s = exec i { s with inputs := rest, inFlight := some r }

/-- R228: every command completes with a response, and no step waits, faults or refuses. -/
def Obligations.EveryCommandCompletes : Prop :=
  (∀ s : State, ∃ t, step s = .next t) ∧
  ∀ (s : State) (r : Request) (rest : List PortInput), s.inputs = .request r :: rest →
    ∃ t resp, step s = .next t ∧ t.response = some resp ∧ t.inputs = rest ∧ t.inFlight = none

/-- R210: nothing happens without a request. -/
def Obligations.NothingHappensWithoutRequest : Prop :=
  ∀ s : State, s.inputs = [] → step s = .next s

/-- R220: RESET outside a command and with a command in flight. -/
def Obligations.ResetEventGivesResetState : Prop :=
  ∀ (s : State) (r : Request) (rest : List PortInput),
    s.inputs = .reset :: rest ∨ s.inputs = .resetInFlight r :: rest →
    ∃ t, step s = .next t ∧ t.seeded = false ∧ t.var = 0 ∧ (∀ i : Fin 15, t.rk[i.val] = 0) ∧ t.ctr = 0 ∧
      t.response = none ∧ t.inFlight = none ∧ t.inputs = rest

/-- R221: the reset values, HWACC, and that ZEROIZE leaves the same registers. -/
def Obligations.ResetStateAsTabled : Prop :=
  State.reset.seeded = false ∧ State.reset.var = 0 ∧ (∀ i : Fin 15, State.reset.rk[i.val] = 0) ∧
  State.reset.ctr = 0 ∧ Config.hwacc = true ∧
  ∀ s : State, ∃ t, exec .zeroize s = .next t ∧ t.tuple = State.reset.tuple

/-- R48: the state after n requests is the left fold of the commands over them. -/
def Obligations.RequestsFoldInOrder : Prop :=
  ∀ (rs : List Request) (s : State),
    Sys2Proof.core.run rs.length { s with inputs := rs.map .request ++ s.inputs } =
      .next (rs.foldl State.perform s)

/-! ### The commands -/

/-- R22: the parameters of the four variants. -/
def Obligations.VariantParameters : Prop :=
  ∀ var : BitVec 2,
    nkOf var = (if var.getLsbD 1 = false then 4 else 8) ∧
    nrOf var = (if var.getLsbD 1 = false then 10 else 14) ∧
    cwOf var = (if var.getLsbD 0 = false then 64 else 128) ∧
    keyBytesOf var = 4 * nkOf var ∧ nrkOf var = nrOf var + 1

/-- R160. -/
def Obligations.NopDoesNothing : Prop :=
  decode 0x00 = .command .nop ∧
  (∀ arg : BitVec 4, arg ≠ 0 → RaisesIllegal (0x0#4 ++ arg)) ∧
  ∀ s : State, ∃ t, exec .nop s = .next t ∧ Answers s t .ok 0 ∧ t.tuple = s.tuple

/-- R141, with the seed fields of R44 written out by their places in DIN. -/
def Obligations.SeedLoadsKeyCounterVariant : Prop :=
  (∀ var : BitVec 2, decode (0x1#4 ++ (0#2 ++ var)) = .command (.seed (0#2 ++ var))) ∧
  (∀ arg : BitVec 4, arg.extractLsb' 2 2 ≠ 0#2 → RaisesIllegal (0x1#4 ++ arg)) ∧
  ∀ (s : State) (r : Request) (var : BitVec 2), s.inFlight = some r →
    let d := r.din.toList
    let k := if var.getLsbD 1 then 32 else 16
    let nr := if var.getLsbD 1 then 14 else 10
    let w := keyExpansion (if var.getLsbD 1 then 8 else 4) (d.take k)
    ∃ t, exec (.seed (0#2 ++ var)) s = .next t ∧ Answers s t .ok 0 ∧
      t.seeded = true ∧ t.var = var ∧
      (∀ i : Fin 15, t.rk[i.val] = if i.val ≤ nr then fromLEBlock (roundKeyBytes w i.val) else 0) ∧
      t.ctr =
        (if var.getLsbD 0 then fromLE128 ((d.drop k).take 16)
         else joinHalves (fromLE64 ((d.drop k).take 8)) (fromLE64 ((d.drop (k + 8)).take 8)))

/-- R142. -/
def Obligations.NextEncryptsThenAdvances : Prop :=
  decode 0x20 = .command .next ∧
  (∀ arg : BitVec 4, arg ≠ 0 → RaisesIllegal (0x2#4 ++ arg)) ∧
  ∀ s : State,
    (s.seeded = true → ∃ t, exec .next s = .next t ∧
      Answers s t .ok
        (fromLEBlock (aesEncrypt (fun i => le128 (s.rk.toList.getD i 0)) (nrOf s.var) (le128 s.ctr))) ∧
      t.ctr = ctrInc s.ctr (cwOf s.var) ∧ t.seeded = s.seeded ∧ t.var = s.var ∧ t.rk = s.rk) ∧
    (s.seeded = false → Fails .next s .errUnseeded)

/-- R143: the increment as arithmetic on numbers. -/
def Obligations.CounterIncrementWraps : Prop :=
  ∀ c : Word,
    (ctrInc c 128).toNat = (c.toNat + 1) % 2 ^ 128 ∧
    (ctrInc c 64).toNat = (c.toNat / 2 ^ 64) * 2 ^ 64 + (c.toNat % 2 ^ 64 + 1) % 2 ^ 64

/-- R144. -/
def Obligations.CounterReadsStreamPosition : Prop :=
  decode 0x30 = .command .counter ∧
  (∀ arg : BitVec 4, arg ≠ 0 → RaisesIllegal (0x3#4 ++ arg)) ∧
  ∀ s : State,
    (s.seeded = true → ∃ t v, exec .counter s = .next t ∧ Answers s t .ok v ∧ t.tuple = s.tuple ∧
      v.toNat = if cwOf s.var = 64 then s.ctr.toNat % 2 ^ 64 else s.ctr.toNat) ∧
    (s.seeded = false → Fails .counter s .errUnseeded)

/-- R145, with the two jumps in a row that partition the counter. -/
def Obligations.JumpAdvancesBy2To64 : Prop :=
  decode 0x40 = .command .jump ∧
  (∀ arg : BitVec 4, arg ≠ 0 → RaisesIllegal (0x4#4 ++ arg)) ∧
  ∀ s : State,
    (s.seeded = true → cwOf s.var = 128 → ∃ t, exec .jump s = .next t ∧ Answers s t .ok s.ctr ∧
      t.ctr.toNat = (s.ctr.toNat + 2 ^ 64) % 2 ^ 128 ∧
      t.ctr.extractLsb' 0 64 = s.ctr.extractLsb' 0 64 ∧
      t.seeded = s.seeded ∧ t.var = s.var ∧ t.rk = s.rk) ∧
    (s.seeded = false → Fails .jump s .errUnseeded) ∧
    (s.seeded = true → cwOf s.var = 64 → Fails .jump s .errVariant) ∧
    (s.seeded = true → cwOf s.var = 128 → ∀ q : Request, q.commandIs .jump = true →
      s.responses [q, q] = [⟨.ok, s.ctr⟩, ⟨.ok, 0x00000000000000010000000000000000#128 + s.ctr⟩] ∧
      (s.performAll [q, q]).ctr = 0x00000000000000020000000000000000#128 + s.ctr)

/-- R146, with two jumps in a row, and the 2^32 jumps that bring CTR back. -/
def Obligations.LongJumpAdvancesBy2To96 : Prop :=
  decode 0x50 = .command .longJump ∧
  (∀ arg : BitVec 4, arg ≠ 0 → RaisesIllegal (0x5#4 ++ arg)) ∧
  (∀ s : State,
    (s.seeded = true → cwOf s.var = 128 → ∃ t, exec .longJump s = .next t ∧ Answers s t .ok s.ctr ∧
      t.ctr.toNat = (s.ctr.toNat + 2 ^ 96) % 2 ^ 128 ∧
      t.ctr.extractLsb' 0 96 = s.ctr.extractLsb' 0 96 ∧
      t.seeded = s.seeded ∧ t.var = s.var ∧ t.rk = s.rk) ∧
    (s.seeded = false → Fails .longJump s .errUnseeded) ∧
    (s.seeded = true → cwOf s.var = 64 → Fails .longJump s .errVariant)) ∧
  (∀ (s : State) (q : Request), s.seeded = true → cwOf s.var = 128 → q.commandIs .longJump = true →
    s.responses [q, q] = [⟨.ok, s.ctr⟩, ⟨.ok, 0x00000001000000000000000000000000#128 + s.ctr⟩] ∧
    (s.performAll [q, q]).ctr = 0x00000002000000000000000000000000#128 + s.ctr ∧
    (s.performAll (List.replicate (2 ^ 32) q)).ctr = s.ctr)

/-- R161, with its corner case: ENCRYPT of `LE_128(CTR)` returns what the next NEXT will return. -/
def Obligations.EncryptEncryptsGivenBlock : Prop :=
  decode 0x60 = .command .encrypt ∧
  (∀ arg : BitVec 4, arg ≠ 0 → RaisesIllegal (0x6#4 ++ arg)) ∧
  (∀ (s : State) (r : Request), s.inFlight = some r →
    (s.seeded = true → ∃ t pt, exec .encrypt s = .next t ∧ pt.toList = r.din.toList.take 16 ∧
      Answers s t .ok
        (fromLEBlock (aesEncrypt (fun i => le128 (s.rk.toList.getD i 0)) (nrOf s.var) pt)) ∧
      t.tuple = s.tuple)) ∧
  (∀ s : State, s.seeded = false → Fails .encrypt s .errUnseeded) ∧
  (∀ (s : State) (e q : Request), s.seeded = true → e.commandIs .encrypt = true → q.commandIs .next = true →
    e.din.toList.take 16 = leWordBytes s.ctr →
    ∃ v, (s.perform e).response = some ⟨.ok, v⟩ ∧ ((s.perform e).perform q).response = some ⟨.ok, v⟩)

/-- R162, with READ_RK's index taken as a number, and the key bytes that indices 0 and 1 disclose. -/
def Obligations.ReadRkReturnsRoundKey : Prop :=
  (∀ idx : BitVec 4, decode (0x7#4 ++ idx) = .command (.readRk idx)) ∧
  (∀ (s : State) (idx : BitVec 4),
    (s.seeded = true → ∀ h : idx.toNat < 15, idx.toNat ≤ nrOf s.var →
      ∃ t, exec (.readRk idx) s = .next t ∧ Answers s t .ok s.rk[idx.toNat] ∧ t.tuple = s.tuple) ∧
    (s.seeded = true → nrOf s.var < idx.toNat → Fails (.readRk idx) s .errRange) ∧
    (s.seeded = false → Fails (.readRk idx) s .errUnseeded)) ∧
  (∀ (s : State) (seed q : Request) (var : BitVec 2), decode seed.cmd = .command (.seed (0#2 ++ var)) →
    (q.commandIs (.readRk 0) = true →
      ((s.perform seed).perform q).response = some ⟨.ok, fromLE128 (seed.din.toList.take 16)⟩) ∧
    (q.commandIs (.readRk 1) = true → var.getLsbD 1 = true →
      ((s.perform seed).perform q).response = some ⟨.ok, fromLE128 ((seed.din.toList.drop 16).take 16)⟩))

/-- R163: the status word bit by bit, in every state, and the response to a STATUS request on an unseeded block
that meets the invariant. -/
def Obligations.StatusReportsHwaccSeededVar : Prop :=
  decode 0x90 = .command .status ∧
  (∀ arg : BitVec 4, arg ≠ 0 → RaisesIllegal (0x9#4 ++ arg)) ∧
  (∀ s : State, ∃ t v, exec .status s = .next t ∧ Answers s t .ok v ∧ t.tuple = s.tuple ∧
    v.getLsbD 0 = true ∧ v.getLsbD 1 = s.seeded ∧ v.extractLsb' 2 2 = s.var ∧
    v.extractLsb' 4 124 = 0#124) ∧
  (∀ (s : State) (q : Request), Inv s → s.seeded = false → q.commandIs .status = true →
    (s.perform q).response = some ⟨.ok, 1⟩)

/-- R164, with what follows it: no data command succeeds before a SEED, and a second ZEROIZE changes nothing. -/
def Obligations.ZeroizeClearsEverything : Prop :=
  decode 0x80 = .command .zeroize ∧
  (∀ arg : BitVec 4, arg ≠ 0 → RaisesIllegal (0x8#4 ++ arg)) ∧
  (∀ s : State, ∃ t, exec .zeroize s = .next t ∧ Answers s t .ok 0 ∧
    t.seeded = false ∧ t.var = 0 ∧ (∀ i : Fin 15, t.rk[i.val] = 0) ∧ t.ctr = 0 ∧
    t.tuple = State.reset.tuple) ∧
  (∀ (s : State) (z q : Request) (rs : List Request) (i : Instr), z.commandIs .zeroize = true →
    (∀ r ∈ rs, r.isSeed = false) → q.commandIs i = true → i.needsSeed = true →
    (((s.perform z).performAll rs).perform q).response = some ⟨.errUnseeded, 0⟩) ∧
  (∀ (s : State) (z : Request), z.commandIs .zeroize = true → (s.perform z).perform z = s.perform z)

/-! ### Errors -/

/-- R202: which commands raise ERR_UNSEEDED, and which never do. -/
def Obligations.UnseededDataCommandsFail : Prop :=
  (∀ (s : State) (idx : BitVec 4), s.seeded = false →
    Fails .next s .errUnseeded ∧ Fails .counter s .errUnseeded ∧ Fails .jump s .errUnseeded ∧
    Fails .longJump s .errUnseeded ∧ Fails .encrypt s .errUnseeded ∧ Fails (.readRk idx) s .errUnseeded) ∧
  ∀ (s t : State) (arg : BitVec 4) (resp : Response),
    exec .nop s = .next t ∨ exec (.seed arg) s = .next t ∨ exec .status s = .next t ∨
      exec .zeroize s = .next t →
    t.response = some resp → resp.status ≠ .errUnseeded

/-- R203. -/
def Obligations.JumpsFailOnC64 : Prop :=
  ∀ s : State, s.seeded = true → s.var.getLsbD 0 = false →
    Fails .jump s .errVariant ∧ Fails .longJump s .errVariant

/-- R204, with the valid indices written as numbers. -/
def Obligations.ReadRkRangeIsChecked : Prop :=
  ∀ (s : State) (idx : BitVec 4), s.seeded = true →
    ((if s.var.getLsbD 1 then 14 else 10) < idx.toNat → Fails (.readRk idx) s .errRange) ∧
    (idx.toNat ≤ (if s.var.getLsbD 1 then 14 else 10) →
      ∃ t resp, exec (.readRk idx) s = .next t ∧ t.response = some resp ∧ resp.status = .ok)

/-- R205: an error changes no register, returns DOUT = 0 and is not sticky: whatever command comes next
gives the registers and the response that it would give without the failed one before it. -/
def Obligations.ErrorsChangeNothing : Prop :=
  ∀ (s t : State) (r : Request) (resp : Response),
    step (s.withRequest r) = .next t → t.response = some resp → resp.status ≠ .ok →
    t.tuple = s.tuple ∧ resp.dout = 0 ∧
    ∀ q : Request, (t.perform q).tuple = (s.perform q).tuple ∧ (t.perform q).response = (s.perform q).response

/-- R200, R206: every request is answered with the first error that applies in the order of R206, else OK;
and no command can meet both ERR_VARIANT and ERR_RANGE. -/
def Obligations.FirstErrorInOrderIsReported : Prop :=
  (∀ (s : State) (r : Request), ∃ t resp, step (s.withRequest r) = .next t ∧ t.response = some resp ∧
    resp.status = statusFor s r.cmd) ∧
  (∀ (i : Instr) (s : State), ¬ (i.isJump = true ∧ i.outOfRange s = true)) ∧
  (∀ st : Status, st.code = match st with
    | .ok => 0x00 | .errIllegal => 0x01 | .errUnseeded => 0x02 | .errVariant => 0x03 | .errRange => 0x04)

/-! ### Rules about the whole machine -/

/-- R20, R126, R212: the writers of each register. A register that a step changed has one of its writers, or
RESET, first on the port. -/
def Obligations.RegistersChangeOnlyByTheirWriters : Prop :=
  ∀ s t : State, step s = .next t →
    ((t.seeded ≠ s.seeded ∨ t.var ≠ s.var ∨ t.rk ≠ s.rk) →
      (∃ r rest, s.inputs = .request r :: rest ∧ r.keepsKeys = false) ∨
      (∃ r rest, s.inputs = .reset :: rest ∨ s.inputs = .resetInFlight r :: rest)) ∧
    (t.ctr ≠ s.ctr →
      (∃ r rest, s.inputs = .request r :: rest ∧ (r.isQuiet = false ∨ r.commandIs .next = true)) ∨
      (∃ r rest, s.inputs = .reset :: rest ∨ s.inputs = .resetInFlight r :: rest))

/-- R25: in a C64 variant the nonce changes only by SEED, ZEROIZE or reset. -/
def Obligations.NonceChangesOnlyBySeedZeroizeReset : Prop :=
  ∀ s t : State, cwOf s.var = 64 → step s = .next t →
    t.ctr.extractLsb' 64 64 ≠ s.ctr.extractLsb' 64 64 →
    (∃ r rest, s.inputs = .request r :: rest ∧ (r.isSeed = true ∨ r.commandIs .zeroize = true)) ∨
    (∃ r rest, s.inputs = .reset :: rest ∨ s.inputs = .resetInFlight r :: rest)

/-- R47: which commands change what, which are idempotent, and that NEXT, JUMP and LONG_JUMP are not. -/
def Obligations.SideEffectsAndIdempotence : Prop :=
  (∀ (i : Instr) (s t : State), exec i s = .next t →
    (i.isReadOnly = true → t.tuple = s.tuple) ∧
    (i = .next ∨ i = .jump ∨ i = .longJump → t.seeded = s.seeded ∧ t.var = s.var ∧ t.rk = s.rk)) ∧
  (∀ (s : State) (r : Request),
    r.commandIs .next = false → r.commandIs .jump = false → r.commandIs .longJump = false →
    ((s.perform r).perform r).tuple = (s.perform r).tuple ∧
    ((s.perform r).perform r).response = (s.perform r).response) ∧
  (∀ (s : State) (r : Request), s.seeded = true →
    r.commandIs .next = true ∨
      (cwOf s.var = 128 ∧ (r.commandIs .jump = true ∨ r.commandIs .longJump = true)) →
    (s.perform r).ctr ≠ s.ctr ∧ ((s.perform r).perform r).ctr ≠ (s.perform r).ctr)

/-- R28, R67: the registers after a command and its response depend only on the registers before it, on CMD
and on the DIN bytes the command uses; ignored DIN bytes and everything else in the state do not matter. -/
def Obligations.ResultsDependOnlyOnRegistersAndUsedDin : Prop :=
  ∀ (s₁ s₂ : State) (r₁ r₂ : Request) (i : Instr),
    s₁.tuple = s₂.tuple → decode r₁.cmd = .command i → decode r₂.cmd = .command i →
    (∀ j : Fin 48, j.val < i.dinUsed → r₁.din[j.val] = r₂.din[j.val]) →
    (s₁.perform r₁).tuple = (s₂.perform r₂).tuple ∧ (s₁.perform r₁).response = (s₂.perform r₂).response

/-! ### The stream -/

/-- R149: after a SEED that sets counter register c, and any requests among which n are NEXT and none is SEED,
JUMP, LONG_JUMP or ZEROIZE, the next NEXT returns the encryption of the counter c advanced n times. -/
def Obligations.StreamIsEncryptionOfSuccessiveCounters : Prop :=
  ∀ (s₀ : State) (seed q : Request) (rs : List Request) (var : BitVec 2),
    decode seed.cmd = .command (.seed (0#2 ++ var)) → (∀ r ∈ rs, r.isQuiet = true) → q.commandIs .next = true →
    let c := seedCtr var seed.din
    let n := rs.countP (Request.commandIs · .next)
    let cn : Word :=
      if var.getLsbD 0 then c + BitVec.ofNat 128 n
      else joinHalves (c.extractLsb' 64 64) (c.extractLsb' 0 64 + BitVec.ofNat 64 n)
    let s := (s₀.perform seed).performAll rs
    s.ctr = cn ∧
    (s.perform q).response =
      some ⟨.ok, fromLEBlock (aesEncrypt
        (roundKeyBytes (keyExpansion (nkOf var) (seedKey var seed.din))) (nrOf var) (le128 cn))⟩

/-- R147, R148: the host that kept the key makes the snapshot generator on a second block, which then holds
exactly the registers the first block held before the jump. -/
def Obligations.SnapshotIsMadeFromKeptKey : Prop :=
  ∀ (s₀ s₁ : State) (var : BitVec 2) (key cbytes : List Byte) (rs : List Request) (q : Request) (resp : Response),
    var.getLsbD 0 = true → key.length = keyBytesOf var → cbytes.length = 16 →
    (∀ r ∈ rs, r.keepsKeys = true) → q.commandIs .jump = true ∨ q.commandIs .longJump = true →
    let g := (s₀.perform (seedRequest var (key ++ cbytes))).performAll rs
    (g.perform q).response = some resp →
    resp.status = .ok ∧ resp.dout = g.ctr ∧ (g.perform q).var = g.var ∧ (g.perform q).rk = g.rk ∧
    (s₁.perform (cloneRequest var key resp.dout)).tuple = g.tuple

/-- R150: the period of the counter under NEXT, and of the outputs. A block that jumps from s goes on from
`(s.perform q).ctr`, the snapshot from `s.ctr`: their counter ranges are disjoint for 2^64 (JUMP) and 2^96 (LONG_JUMP)
NEXTs, after which the snapshot's counter reaches the one the block went on from. -/
def Obligations.CounterPeriodAndDisjointRanges : Prop :=
  (∀ (c : Word) (n : Nat), (fun x => ctrInc x 128)^[n] c = c ↔ 2 ^ 128 ∣ n) ∧
  (∀ (c : Word) (n : Nat), (fun x => ctrInc x 64)^[n] c = c ↔ 2 ^ 64 ∣ n) ∧
  (∀ (s : State) (q : Request) (n : Nat), s.seeded = true → q.commandIs .next = true →
    let t := s.performAll (List.replicate n q)
    t.ctr = (fun x => ctrInc x (cwOf s.var))^[n] s.ctr ∧
    (t.ctr = s.ctr ↔ 2 ^ cwOf s.var ∣ n) ∧
    (2 ^ cwOf s.var ∣ n → (t.perform q).response = (s.perform q).response)) ∧
  (∀ (s : State) (q : Request), s.seeded = true → cwOf s.var = 128 → q.commandIs .jump = true →
    (∀ m n : Nat, m < 2 ^ 64 → n < 2 ^ 64 →
      (fun x => ctrInc x 128)^[m] s.ctr ≠ (fun x => ctrInc x 128)^[n] (s.perform q).ctr) ∧
    (fun x => ctrInc x 128)^[2 ^ 64] s.ctr = (s.perform q).ctr) ∧
  (∀ (s : State) (q : Request), s.seeded = true → cwOf s.var = 128 → q.commandIs .longJump = true →
    (∀ m n : Nat, m < 2 ^ 96 → n < 2 ^ 96 →
      (fun x => ctrInc x 128)^[m] s.ctr ≠ (fun x => ctrInc x 128)^[n] (s.perform q).ctr) ∧
    (fun x => ctrInc x 128)^[2 ^ 96] s.ctr = (s.perform q).ctr)

/-- R223: a host program that SEEDs first and then sends only commands the seeded variant has (no further SEED, no
ZEROIZE, no jump on a C64 variant, no round-key index above Nr) is answered OK at every request. -/
def Obligations.ProgramsThatSeedFirstAreSafe : Prop :=
  ∀ (s : State) (seed : Request) (var : BitVec 2) (rs : List Request),
    decode seed.cmd = .command (.seed (0#2 ++ var)) →
    (∀ r ∈ rs, r.keepsKeys = true ∧ ∃ i, decode r.cmd = .command i ∧
      (i.isJump = true → var.getLsbD 0 = true) ∧
      (∀ idx, i = .readRk idx → idx.toNat ≤ if var.getLsbD 1 then 14 else 10)) →
    safeRun s (seed :: rs) = true

/-! ### Invariant -/

/-- The reset state meets the invariant. -/
def Obligations.ResetMeetsInvariant : Prop := Inv State.reset

/-- R21, R23, R49, R205 over every step: an unseeded block holds the reset values, a seeded block's round keys
are one key expansion with zeros above Nr, nothing is in flight between steps, an error response has DOUT = 0. -/
def Obligations.StepKeepsInvariant : Prop :=
  ∀ s t : State, Inv s → step s = .next t → Inv t

/-! ### The cipher core -/

/-- R101: the inverse of a nonzero byte is the one byte whose product with it is 0x01; 0x00 has inverse 0x00. -/
def Obligations.FieldInverseIsUnique : Prop :=
  gfInv 0 = 0 ∧
  (∀ a b : Byte, a ≠ 0 → (gfMul a b = 1 ↔ b = gfInv a))

/-- R102: xtime is multiplication by 0x02, and every product is a sum of xtime powers. -/
def Obligations.XtimeIsMultiplicationByTwo : Prop :=
  (∀ a : Byte, xtime a = gfMul 0x02 a ∧ xtime3 a = gfMul 0x03 a) ∧
  (∀ a b : Byte, gfMul a b =
    (List.range 8).foldl (fun acc i => if b.getLsbD i then acc ^^^ xtime^[i] a else acc) 0)

/-- R103, R104: the table is the affine map of the inverse, bit by bit; it is a permutation of the bytes with no
fixed point and no opposite fixed point. -/
def Obligations.SboxTableIsAffineInverse : Prop :=
  (∀ (x : Byte) (i : Fin 8), (sbox x).getLsbD i =
    (((gfInv x).getLsbD i ^^ (gfInv x).getLsbD ((i + 4) % 8)) ^^ ((gfInv x).getLsbD ((i + 5) % 8) ^^
      (gfInv x).getLsbD ((i + 6) % 8)) ^^ ((gfInv x).getLsbD ((i + 7) % 8) ^^ (0x63#8).getLsbD i))) ∧
  (∀ x : Byte, sbox x = sboxAffine (gfInv x)) ∧
  Function.Bijective sbox ∧
  (∀ x : Byte, sbox x ≠ x ∧ sbox x ≠ x ^^^ 0xFF)

/-- R105 to R107: SubBytes and ShiftRows cell by cell; SubBytes commutes with every selection of bytes, ShiftRows
included, and a state whose every row is constant is unchanged by ShiftRows. -/
def Obligations.SubBytesAndShiftRowsByCell : Prop :=
  ∀ st : Block,
    (∀ i : Fin 16, (subBytes st)[i.val] = sbox st[i.val]) ∧
    (∀ r c : Fin 4, (shiftRows st)[r.val + 4 * c.val] = st[r.val + 4 * ((c.val + r.val) % 4)]) ∧
    (∀ σ : Fin 16 → Fin 16,
      subBytes (Vector.ofFn fun i => st[(σ i).val]) = Vector.ofFn fun i => (subBytes st)[(σ i).val]) ∧
    subBytes (shiftRows st) = shiftRows (subBytes st) ∧
    ((∀ r c : Fin 4, st[r.val + 4 * c.val] = st[r.val]) → shiftRows st = st)

/-- R108: MixColumns is the matrix [02 03 01 01; 01 02 03 01; 01 01 02 03; 03 01 01 02] over the field of R101, and a
column of four equal bytes is unchanged. -/
def Obligations.MixColumnsIsTheMatrix : Prop :=
  ∀ (st : Block) (c : Fin 4),
    let a (r : Fin 4) : Byte := st[r.val + 4 * c.val]
    let b (r : Fin 4) : Byte := (mixColumns st)[r.val + 4 * c.val]
    b 0 = gfMul 0x02 (a 0) ^^^ gfMul 0x03 (a 1) ^^^ a 2 ^^^ a 3 ∧
    b 1 = a 0 ^^^ gfMul 0x02 (a 1) ^^^ gfMul 0x03 (a 2) ^^^ a 3 ∧
    b 2 = a 0 ^^^ a 1 ^^^ gfMul 0x02 (a 2) ^^^ gfMul 0x03 (a 3) ∧
    b 3 = gfMul 0x03 (a 0) ^^^ a 1 ^^^ a 2 ^^^ gfMul 0x02 (a 3) ∧
    ((∀ r, a r = a 0) → ∀ r, b r = a r)

/-- R109: AddRoundKey byte by byte; it is its own inverse and a zero key changes nothing. -/
def Obligations.AddRoundKeyIsItsOwnInverse : Prop :=
  ∀ st k : Block,
    (∀ i : Fin 16, (addRoundKey st k)[i.val] = st[i.val] ^^^ k[i.val]) ∧
    addRoundKey (addRoundKey st k) k = st ∧ addRoundKey st (Vector.replicate 16 0) = st

/-- R110 to R112: the cipher as a loop over rounds 1 to Nr - 1, and that it reads the round keys 0 to Nr only. -/
def Obligations.CipherRunsItsRoundsInOrder : Prop :=
  (∀ (rk : Nat → Block) (n : Nat) (blk : Block), aesEncrypt rk (n + 1) blk =
    addRoundKey (shiftRows (subBytes
      ((List.range n).foldl
        (fun st r => addRoundKey (mixColumns (shiftRows (subBytes st))) (rk (r + 1)))
        (addRoundKey blk (rk 0))))) (rk (n + 1))) ∧
  (∀ (rk rk' : Nat → Block) (nr : Nat) (blk : Block), (∀ i, i ≤ nr → rk i = rk' i) →
    aesEncrypt rk nr blk = aesEncrypt rk' nr blk)

/-- R123, R125: the words of the key schedule: how many there are, that the first Nk are the key, and the
recurrence for every later one. -/
def Obligations.KeyScheduleRecurrence : Prop :=
  ∀ (nk : Nat) (key : List Byte), nk = 4 ∨ nk = 8 → key.length = 4 * nk →
    (keyExpansion nk key).length = 4 * (nk + 6 + 1) ∧
    (∀ i, i < nk → ∀ j : Fin 4,
      ((keyExpansion nk key).getD i zeroKeyWord)[j.val] = key.getD (4 * i + j.val) 0) ∧
    (∀ i, nk ≤ i → i < 4 * (nk + 6 + 1) →
      let w (n : Nat) : KeyWord := (keyExpansion nk key).getD n zeroKeyWord
      w i = xorWord (w (i - nk))
        (if i % nk = 0 then xorWord (subWord (rotWord (w (i - 1)))) (rcon (i / nk))
         else if nk > 6 ∧ i % nk = 4 then subWord (w (i - 1)) else w (i - 1)))

/-- R120 to R122: RotWord, SubWord, the ten round constants and the word Rcon[j]. -/
def Obligations.KeyScheduleWordFunctions : Prop :=
  (∀ a0 a1 a2 a3 : Byte, rotWord #v[a0, a1, a2, a3] = #v[a1, a2, a3, a0]) ∧
  (∀ a0 a1 a2 a3 : Byte, subWord #v[a0, a1, a2, a3] = #v[sbox a0, sbox a1, sbox a2, sbox a3]) ∧
  (List.range 10).map (fun j => roundConstant (j + 1)) =
    [0x01, 0x02, 0x04, 0x08, 0x10, 0x20, 0x40, 0x80, 0x1b, 0x36] ∧
  (∀ j, 2 ≤ j → roundConstant j = xtime (roundConstant (j - 1))) ∧
  (∀ j, 1 ≤ j → rcon j = #v[roundConstant j, 0x00, 0x00, 0x00])

/-- R124, R162: after a SEED, byte `4j + t` of the DOUT bytes of READ_RK r is byte t of word `4r + j` of the
seeded key's schedule. -/
def Obligations.ReadRkShowsTheSeededSchedule : Prop :=
  ∀ (s : State) (seed q : Request) (var : BitVec 2) (idx : BitVec 4),
    decode seed.cmd = .command (.seed (0#2 ++ var)) → q.commandIs (.readRk idx) = true → idx.toNat ≤ nrOf var →
    ∃ resp, ((s.perform seed).perform q).response = some resp ∧ resp.status = .ok ∧
      ∀ j t : Fin 4, resp.doutBytes[4 * j.val + t.val] =
        ((keyExpansion (nkOf var) (seedKey var seed.din)).getD (4 * idx.toNat + j.val) zeroKeyWord)[t.val]

/-! ### Byte order and seed fields -/

/-- R9, R41: the little-endian order itself, bit by bit and as a sum, for every byte string and every width; that
`fromLE(LE_n(v)) = v`; and the order of the port's blocks, 64-bit fields and DOUT bytes. -/
def Obligations.LittleEndianRoundTrip : Prop :=
  (∀ (n : Nat) (v : BitVec n) (i : Nat), leByte v i = v.extractLsb' (8 * i) 8) ∧
  (∀ b : List Byte, fromLENat b = ∑ i : Fin b.length, b[i.val].toNat * 2 ^ (8 * i.val)) ∧
  (∀ (m : Nat) (v : BitVec (8 * m)), fromLENat ((List.range m).map (leByte v)) = v.toNat) ∧
  (∀ (v : Word) (i : Fin 16), (le128 v)[i.val] = v.extractLsb' (8 * i.val) 8) ∧
  (∀ b : Block, (fromLEBlock b).toNat = ∑ i : Fin 16, b[i.val].toNat * 2 ^ (8 * i.val)) ∧
  (∀ b : List Byte, b.length = 16 → (fromLE128 b).toNat = fromLENat b) ∧
  (∀ b : List Byte, b.length = 8 → (fromLE64 b).toNat = fromLENat b) ∧
  (∀ (r : Response) (i : Fin 16), r.doutBytes[i.val] = r.dout.extractLsb' (8 * i.val) 8) ∧
  (∀ v : Word, fromLEBlock (le128 v) = v) ∧
  (∀ b : Block, le128 (fromLEBlock b) = b) ∧
  (∀ v : Half, fromLE64 ((List.range 8).map (leByte v)) = v)

/-- R44: where the seed fields of each variant lie in DIN. -/
def Obligations.SeedFieldsLieInDin : Prop :=
  ∀ (var : BitVec 2) (d : Din),
    let k := if var.getLsbD 1 then 32 else 16
    (seedKey var d).length = k ∧
    (∀ j : Fin 48, j.val < k → (seedKey var d)[j.val]? = some d[j.val]) ∧
    (var.getLsbD 0 = false →
      (seedCtr var d).toNat = fromLENat ((d.toList.drop k).take 8) * 2 ^ 64 +
        fromLENat ((d.toList.drop (k + 8)).take 8)) ∧
    (var.getLsbD 0 = true → (seedCtr var d).toNat = fromLENat ((d.toList.drop k).take 16))

/-! ### Platform and assembler -/

/-- R30, R50: a command to one block leaves the others alone, and commands to different blocks commute. -/
def Obligations.BlocksAreIndependent : Prop :=
  (∀ (p p' : Platform) (k j : Nat) (r : Request), p.command k r = .next p' → j ≠ k →
    p'.blocks[j]? = p.blocks[j]?) ∧
  (∀ (p : Platform) (k : Nat) (r : Request) (s : State), p.blocks[k]? = some s →
    ∃ p', p.command k r = .next p' ∧ p'.blocks[k]? = some (s.perform r)) ∧
  (∀ (p : Platform) (j k : Nat) (r q : Request), j ≠ k →
    p.commands [(j, r), (k, q)] = p.commands [(k, q), (j, r)])

/-- R208 (I3): a run that drives a port where no block is present is refused. -/
def Obligations.AbsentBlockIsRefused : Prop :=
  ∀ (p : Platform) (k : Nat) (r : Request), p.blocks.length ≤ k →
    p.command k r = .refused .noBlockPresent ∧ p.stepAt k = .refused .noBlockPresent

/-- R71: each line assembles to its command word and to DIN holding its operand bytes, zeros after them. That a raw
word's DIN comes from the same line is the model's reading (log 8). -/
def Obligations.AssemblerEncodesLines : Prop :=
  (∀ (var : BitVec 2) (bytes : List Byte), bytes.length = (if var.getLsbD 1 then 48 else 32) →
    ∃ q, (AsmLine.seed var bytes).assemble = some q ∧ q.cmd = 0x10 + var.setWidth 8 ∧
      (∀ j : Fin 48, q.din[j.val] = bytes.getD j.val 0)) ∧
  (∀ bytes : List Byte, bytes.length = 16 →
    ∃ q, (AsmLine.encrypt bytes).assemble = some q ∧ q.cmd = 0x60 ∧
      (∀ j : Fin 48, q.din[j.val] = bytes.getD j.val 0)) ∧
  (∀ idx : Nat, idx ≤ 15 →
    ∃ q, (AsmLine.readRk idx).assemble = some q ∧ q.cmd.toNat = 0x70 + idx ∧ q.din = Vector.replicate 48 0) ∧
  (∀ (l : AsmLine) (cmd : Byte),
    (l, cmd) ∈ [(AsmLine.nop, 0x00#8), (.next, 0x20), (.counter, 0x30), (.jump, 0x40), (.longJump, 0x50),
      (.zeroize, 0x80), (.status, 0x90)] →
    l.assemble = some ⟨cmd, Vector.replicate 48 0⟩) ∧
  (∀ (cmd : Byte) (bytes : List Byte), bytes.length ≤ 48 →
    ∃ q, (AsmLine.word cmd bytes).assemble = some q ∧ q.cmd = cmd ∧
      (∀ j : Fin 48, q.din[j.val] = bytes.getD j.val 0))

/-- R72: what each call of the API sends and the value it takes from the block. A seeding call replaces the registers,
`next` and the jumps take DOUT, and the snapshot of a jump is made on any block `s₁` from the key the host kept.
`fill_bytes` takes the bytes of successive NEXTs (that it cuts the last block is the model's reading, log 13). -/
def Obligations.ApiCallsReadTheirValues : Prop :=
  (∀ s : State, ∃ resp, s.responses ApiCall.isHardwareAccelerated.requests = [resp] ∧
    resp.status = .ok ∧ hardwareAccelerated resp = true) ∧
  (∀ s : State, s.seeded = true → ∃ resp, s.responses ApiCall.counter.requests = [resp] ∧
    resp.status = .ok ∧
    counterValue s.var resp = if cwOf s.var = 64 then s.ctr.toNat % 2 ^ 64 else s.ctr.toNat) ∧
  (∀ s : State, (s.performAll ApiCall.drop.requests).tuple = State.reset.tuple) ∧
  (∀ (s : State) (var : BitVec 2) (seed : List Byte) (call : ApiCall), seed.length = seedBytesOf var →
    call ∈ [.fromSeed var seed, .reseed var seed, .fromEntropy var seed, .seedFromEntropy var seed] →
    let k := keyBytesOf var
    let t := s.performAll call.requests
    s.responses call.requests = [⟨.ok, 0⟩] ∧ t.seeded = true ∧ t.var = var ∧
    t.rk = seedRoundKeys var (seed.take k) ∧
    t.ctr = (if var.getLsbD 0 then fromLE128 (seed.drop k)
      else joinHalves (fromLE64 ((seed.drop k).take 8)) (fromLE64 (seed.drop (k + 8))))) ∧
  (∀ s : State, s.seeded = true →
    s.responses ApiCall.next.requests = [⟨.ok, fromLEBlock (s.encryptBlock (le128 s.ctr))⟩]) ∧
  (∀ (s s₁ : State) (call : ApiCall) (key : List Byte), s.seeded = true → cwOf s.var = 128 →
    call ∈ [.jump, .longJump] → key.length = keyBytesOf s.var →
    ∃ resp, s.responses call.requests = [resp] ∧ resp.status = .ok ∧ resp.dout = s.ctr ∧
      let g₁ := s₁.perform (jumpSnapshot s.var key resp)
      g₁.seeded = true ∧ g₁.var = s.var ∧ g₁.rk = seedRoundKeys s.var key ∧ g₁.ctr = s.ctr) ∧
  (∀ (s : State) (n : Nat), s.seeded = true →
    let rs := s.responses (ApiCall.fillBytes n).requests
    (∀ r ∈ rs, r.status = .ok) ∧ (filledBytes n rs).length = n ∧
    ∀ j, j < n → (filledBytes n rs)[j]? =
      (s.encryptBlock (le128 ((fun x => ctrInc x (cwOf s.var))^[j / 16] s.ctr))).toList[j % 16]?)

/-! ### The stream, step by step -/

/-- R126, R149 as a step: a SEED puts the block at the start of a stream; from then on every request that is none of
SEED, JUMP, LONG_JUMP and ZEROIZE keeps it on that stream, and a NEXT returns the encryption of the stream's counter and
moves it one place on. -/
def Obligations.StepKeepsTheStream : Prop :=
  (∀ (s t : State) (r : Request) (rest : List PortInput) (var : BitVec 2),
    s.inputs = .request r :: rest → decode r.cmd = .command (.seed (0#2 ++ var)) → step s = .next t →
    OnStream var (seedKey var r.din) (seedCtr var r.din) 0 t) ∧
  (∀ (s t : State) (r : Request) (rest : List PortInput) (var : BitVec 2) (key : List Byte) (c : Word) (j : Nat),
    OnStream var key c j s → s.inputs = .request r :: rest → r.isQuiet = true → step s = .next t →
    OnStream var key c (if r.commandIs .next then j + 1 else j) t ∧
    (r.commandIs .next = true → t.response =
      some ⟨.ok, fromLEBlock (aesEncrypt (roundKeyBytes (keyExpansion (nkOf var) key)) (nrOf var)
        (le128 (streamCounter var c j)))⟩)) ∧
  (∀ (s t : State) (var : BitVec 2) (key : List Byte) (c : Word) (j : Nat),
    OnStream var key c j s → s.inputs = [] → step s = .next t → OnStream var key c j t)
end

