-- ==== Sys2Proof/Laws/Aes.lean ====
section
/-!
SUPPORT. The cipher core byte by byte, and the length of the key schedule.
-/
namespace Sys2Proof.Machine

/-! ### The field: multiplication is additive in each factor -/

theorem bitTerm_xor_coefficient {n : Nat} (c d : Bool) (x : BitVec n) :
    bitTerm (c ^^ d) x = bitTerm c x ^^^ bitTerm d x := by
  cases c <;> cases d <;> simp [bitTerm]

theorem bitTerm_xor_term {n : Nat} (c : Bool) (x y : BitVec n) :
    bitTerm c (x ^^^ y) = bitTerm c x ^^^ bitTerm c y := by
  cases c <;> simp [bitTerm]

/-- Two sums taken side by side are the sum of the two. -/
theorem foldl_xor_add {n : Nat} (f g : Nat → BitVec n) (l : List Nat) (p q : BitVec n) :
    l.foldl (fun acc i => acc ^^^ (f i ^^^ g i)) (p ^^^ q) =
      l.foldl (fun acc i => acc ^^^ f i) p ^^^ l.foldl (fun acc i => acc ^^^ g i) q := by
  induction l generalizing p q with
  | nil => rfl
  | cons i l ih =>
    rw [List.foldl_cons, List.foldl_cons, List.foldl_cons, ← ih]
    congr 1
    ac_rfl

theorem polyMul_xor_right (a b c : Byte) : polyMul a (b ^^^ c) = polyMul a b ^^^ polyMul a c := by
  have h := foldl_xor_add (fun i => bitTerm (b.getLsbD i) (a.setWidth 16 <<< i))
    (fun i => bitTerm (c.getLsbD i) (a.setWidth 16 <<< i)) (List.range 8) 0 0
  simpa [polyMul, bitTerm_xor_coefficient] using h

theorem polyMul_xor_left (a b c : Byte) : polyMul (a ^^^ b) c = polyMul a c ^^^ polyMul b c := by
  have h := foldl_xor_add (fun i => bitTerm (c.getLsbD i) (a.setWidth 16 <<< i))
    (fun i => bitTerm (c.getLsbD i) (b.setWidth 16 <<< i)) (List.range 8) 0 0
  simpa [polyMul, bitTerm_xor_term, BitVec.setWidth_xor, BitVec.shiftLeft_xor_distrib] using h

theorem polyMod_xor (p q : BitVec 16) : polyMod (p ^^^ q) = polyMod p ^^^ polyMod q := by
  have h : ∀ (l : List Nat) (p q : BitVec 16),
      l.foldl (fun q i => q ^^^ bitTerm (q.getLsbD (14 - i)) (0x11B#16 <<< (6 - i))) (p ^^^ q) =
        l.foldl (fun q i => q ^^^ bitTerm (q.getLsbD (14 - i)) (0x11B#16 <<< (6 - i))) p ^^^
        l.foldl (fun q i => q ^^^ bitTerm (q.getLsbD (14 - i)) (0x11B#16 <<< (6 - i))) q := by
    intro l
    induction l with
    | nil => intro p q; rfl
    | cons i l ih =>
      intro p q
      rw [List.foldl_cons, List.foldl_cons, List.foldl_cons, ← ih, BitVec.getLsbD_xor, bitTerm_xor_coefficient]
      congr 1
      ac_rfl
  rw [polyMod, h, BitVec.setWidth_xor]
  rfl

theorem gfMul_xor_right (a b c : Byte) : gfMul a (b ^^^ c) = gfMul a b ^^^ gfMul a c := by
  rw [gfMul, polyMul_xor_right, polyMod_xor]; rfl

theorem gfMul_xor_left (a b c : Byte) : gfMul (a ^^^ b) c = gfMul a c ^^^ gfMul b c := by
  rw [gfMul, polyMul_xor_left, polyMod_xor]; rfl

/-! ### Bytes of a result -/

@[simp] theorem subBytes_getElem (st : Block) (i : Nat) (h : i < 16) : (subBytes st)[i] = sbox st[i] := by
  simp [subBytes]

@[simp] theorem addRoundKey_getElem (st k : Block) (i : Nat) (h : i < 16) :
    (addRoundKey st k)[i] = st[i] ^^^ k[i] := by simp [addRoundKey]

@[simp] theorem subWord_getElem (a : KeyWord) (i : Nat) (h : i < 4) : (subWord a)[i] = sbox a[i] := by
  simp [subWord]

@[simp] theorem xorWord_getElem (a b : KeyWord) (i : Nat) (h : i < 4) : (xorWord a b)[i] = a[i] ^^^ b[i] := by
  simp [xorWord]

@[simp] theorem le128_getElem (v : Word) (i : Nat) (h : i < 16) : (le128 v)[i] = leByte v i := by
  simp [le128]

/-- A state built cell by cell has those cells (R105). -/
@[simp] theorem cell_ofCells (f : Fin 4 → Fin 4 → Byte) (r c : Fin 4) : cell (ofCells f) r c = f r c := by
  have hr := r.isLt
  have hc := c.isLt
  simp only [cell, ofCells, Vector.getElem_ofFn]
  congr 1 <;> (apply Fin.ext; simp only []; omega)

theorem cell_subBytes (st : Block) (r c : Fin 4) : cell (subBytes st) r c = sbox (cell st r c) := by
  simp [cell]

theorem cell_shiftRows (st : Block) (r c : Fin 4) : cell (shiftRows st) r c = cell st r (c + r) := by
  simp [shiftRows]

theorem cell_mixColumns (st : Block) (r c : Fin 4) : cell (mixColumns st) r c =
    mixColumn (cell st 0 c) (cell st 1 c) (cell st 2 c) (cell st 3 c) r := by simp [mixColumns]

/-- Two states with the same cells are equal. -/
theorem block_ext_cells {a b : Block} (h : ∀ r c, cell a r c = cell b r c) : a = b := by
  refine Vector.ext fun i hi => ?_
  have := h ⟨i % 4, by omega⟩ ⟨i / 4, by omega⟩
  simpa [cell, Nat.mod_add_div] using this

/-! ### Rounds -/

@[simp] theorem roundState_zero (rk : Nat → Block) (blk : Block) :
    roundState rk blk 0 = addRoundKey blk (rk 0) := rfl

@[simp] theorem roundState_succ (rk : Nat → Block) (blk : Block) (r : Nat) :
    roundState rk blk (r + 1) = fullRound (roundState rk blk r) (rk (r + 1)) := rfl

/-! ### The key schedule -/

@[simp] theorem extendSchedule_zero (nk : Nat) (w : List KeyWord) : extendSchedule nk 0 w = w := rfl

@[simp] theorem extendSchedule_succ (nk n : Nat) (w : List KeyWord) :
    extendSchedule nk (n + 1) w = extendSchedule nk n (w ++ [nextKeyWord nk w]) := rfl

theorem extendSchedule_length (nk n : Nat) (w : List KeyWord) :
    (extendSchedule nk n w).length = w.length + n := by
  induction n generalizing w with
  | zero => rfl
  | succ n ih => simp [ih]; omega

/-- Extending the schedule keeps the words already made. -/
theorem extendSchedule_getElem? (nk n : Nat) (w : List KeyWord) (i : Nat) (h : i < w.length) :
    (extendSchedule nk n w)[i]? = w[i]? := by
  induction n generalizing w with
  | zero => rfl
  | succ n ih =>
    rw [extendSchedule_succ, ih _ (by simp; omega), List.getElem?_append_left h]

@[simp] theorem keyToWords_length (nk : Nat) (key : List Byte) : (keyToWords nk key).length = nk := by
  simp [keyToWords]

end Sys2Proof.Machine
end

