-- ==== Sys2Proof/Laws/Bytes.lean ====
section
/-!
SUPPORT. Halves of a 128-bit register, byte strings as numbers, and the counter increment on halves.
-/
namespace Sys2Proof.Machine

/-! ### Halves (R8, R24) -/

theorem joinHalves_toNat (hi lo : Half) : (joinHalves hi lo).toNat = hi.toNat * 2 ^ 64 + lo.toNat := by
  unfold joinHalves
  rw [BitVec.toNat_append, ← Nat.shiftLeft_add_eq_or_of_lt lo.isLt, Nat.shiftLeft_eq]

theorem high_toNat (c : Word) : (c.extractLsb' 64 64).toNat = c.toNat / 2 ^ 64 := by
  have := c.isLt
  rw [BitVec.extractLsb'_toNat, Nat.shiftRight_eq_div_pow]
  omega

theorem low_toNat (c : Word) : (c.extractLsb' 0 64).toNat = c.toNat % 2 ^ 64 := by simp

@[simp] theorem joinHalves_high (hi lo : Half) : (joinHalves hi lo).extractLsb' 64 64 = hi := by
  apply BitVec.eq_of_toNat_eq
  rw [high_toNat, joinHalves_toNat]
  have := lo.isLt
  omega

@[simp] theorem joinHalves_low (hi lo : Half) : (joinHalves hi lo).extractLsb' 0 64 = lo := by
  apply BitVec.eq_of_toNat_eq
  rw [low_toNat, joinHalves_toNat]
  have := lo.isLt
  omega

@[simp] theorem joinHalves_eta (c : Word) : joinHalves (c.extractLsb' 64 64) (c.extractLsb' 0 64) = c := by
  apply BitVec.eq_of_toNat_eq
  rw [joinHalves_toNat, high_toNat, low_toNat]
  omega

/-! ### The counter increment by halves (R143) -/

theorem ctrInc_128 (c : Word) : ctrInc c 128 = c + 1#128 := rfl

theorem ctrInc_64 (c : Word) :
    ctrInc c 64 = joinHalves (c.extractLsb' 64 64) (c.extractLsb' 0 64 + 1#64) := rfl

theorem ctrInc_64_high (c : Word) : (ctrInc c 64).extractLsb' 64 64 = c.extractLsb' 64 64 := by
  simp [ctrInc_64]

theorem ctrInc_64_low (c : Word) : (ctrInc c 64).extractLsb' 0 64 = c.extractLsb' 0 64 + 1#64 := by
  simp [ctrInc_64]

/-! ### The jump distances (R145, R146) -/

theorem jumpDistance_toNat : jumpDistance.toNat = 2 ^ 64 := by decide
theorem longJumpDistance_toNat : longJumpDistance.toNat = 2 ^ 96 := by decide

/-! ### Byte strings as numbers (R9) -/

@[simp] theorem fromLENat_nil : fromLENat [] = 0 := rfl
@[simp] theorem fromLENat_cons (b : Byte) (bs : List Byte) :
    fromLENat (b :: bs) = b.toNat + 256 * fromLENat bs := rfl

theorem fromLENat_lt (bs : List Byte) : fromLENat bs < 256 ^ bs.length := by
  induction bs with
  | nil => simp
  | cons b bs ih =>
    have hb : b.toNat < 256 := b.isLt
    rw [fromLENat_cons, List.length_cons, Nat.pow_succ]
    omega

theorem fromLENat_append (as bs : List Byte) :
    fromLENat (as ++ bs) = fromLENat as + 256 ^ as.length * fromLENat bs := by
  induction as with
  | nil => simp
  | cons a as ih =>
    rw [List.cons_append, fromLENat_cons, ih, fromLENat_cons, List.length_cons, Nat.pow_succ]
    ring

/-- `LE_n(v)[i]` as a number (R9). -/
theorem leByte_toNat {n : Nat} (v : BitVec n) (i : Nat) : (leByte v i).toNat = v.toNat / 256 ^ i % 256 := by
  rw [leByte, BitVec.extractLsb'_toNat, Nat.shiftRight_eq_div_pow, Nat.pow_mul]

end Sys2Proof.Machine
end

