-- ==== Sys2Proof/Laws/State.lean ====
section
/-!
SUPPORT. One lemma per field and update of State, true by rfl, so that no proof unfolds a record update.
-/
namespace Sys2Proof.Machine

variable (s : State)

/-! ### setCtr -/

@[simp] theorem State.setCtr_seeded (c : Word) : (s.setCtr c).seeded = s.seeded := rfl
@[simp] theorem State.setCtr_var (c : Word) : (s.setCtr c).var = s.var := rfl
@[simp] theorem State.setCtr_rk (c : Word) : (s.setCtr c).rk = s.rk := rfl
@[simp] theorem State.setCtr_ctr (c : Word) : (s.setCtr c).ctr = c := rfl
@[simp] theorem State.setCtr_inputs (c : Word) : (s.setCtr c).inputs = s.inputs := rfl
@[simp] theorem State.setCtr_inFlight (c : Word) : (s.setCtr c).inFlight = s.inFlight := rfl
@[simp] theorem State.setCtr_response (c : Word) : (s.setCtr c).response = s.response := rfl

/-! ### loadSeed -/

@[simp] theorem State.loadSeed_seeded (v : BitVec 2) (k : Vector Word 15) (c : Word) : (s.loadSeed v k c).seeded = true := rfl
@[simp] theorem State.loadSeed_var (v : BitVec 2) (k : Vector Word 15) (c : Word) : (s.loadSeed v k c).var = v := rfl
@[simp] theorem State.loadSeed_rk (v : BitVec 2) (k : Vector Word 15) (c : Word) : (s.loadSeed v k c).rk = k := rfl
@[simp] theorem State.loadSeed_ctr (v : BitVec 2) (k : Vector Word 15) (c : Word) : (s.loadSeed v k c).ctr = c := rfl
@[simp] theorem State.loadSeed_inputs (v : BitVec 2) (k : Vector Word 15) (c : Word) : (s.loadSeed v k c).inputs = s.inputs := rfl
@[simp] theorem State.loadSeed_inFlight (v : BitVec 2) (k : Vector Word 15) (c : Word) : (s.loadSeed v k c).inFlight = s.inFlight := rfl
@[simp] theorem State.loadSeed_response (v : BitVec 2) (k : Vector Word 15) (c : Word) : (s.loadSeed v k c).response = s.response := rfl

/-! ### clear -/

@[simp] theorem State.clear_seeded : (s.clear).seeded = false := rfl
@[simp] theorem State.clear_var : (s.clear).var = 0 := rfl
@[simp] theorem State.clear_rk : (s.clear).rk = Vector.replicate 15 0 := rfl
@[simp] theorem State.clear_ctr : (s.clear).ctr = 0 := rfl
@[simp] theorem State.clear_inputs : (s.clear).inputs = s.inputs := rfl
@[simp] theorem State.clear_inFlight : (s.clear).inFlight = s.inFlight := rfl
@[simp] theorem State.clear_response : (s.clear).response = s.response := rfl

/-! ### respond -/

@[simp] theorem State.respond_seeded (st : Status) (d : Word) : (s.respond st d).seeded = s.seeded := rfl
@[simp] theorem State.respond_var (st : Status) (d : Word) : (s.respond st d).var = s.var := rfl
@[simp] theorem State.respond_rk (st : Status) (d : Word) : (s.respond st d).rk = s.rk := rfl
@[simp] theorem State.respond_ctr (st : Status) (d : Word) : (s.respond st d).ctr = s.ctr := rfl
@[simp] theorem State.respond_inputs (st : Status) (d : Word) : (s.respond st d).inputs = s.inputs := rfl
@[simp] theorem State.respond_inFlight (st : Status) (d : Word) : (s.respond st d).inFlight = none := rfl
@[simp] theorem State.respond_response (st : Status) (d : Word) : (s.respond st d).response = some ⟨st, d⟩ := rfl
@[simp] theorem State.respond_tuple (st : Status) (d : Word) : (s.respond st d).tuple = s.tuple := rfl

/-! ### accept -/

@[simp] theorem State.accept_seeded (r : Request) (rest : List PortInput) : (s.accept r rest).seeded = s.seeded := rfl
@[simp] theorem State.accept_var (r : Request) (rest : List PortInput) : (s.accept r rest).var = s.var := rfl
@[simp] theorem State.accept_rk (r : Request) (rest : List PortInput) : (s.accept r rest).rk = s.rk := rfl
@[simp] theorem State.accept_ctr (r : Request) (rest : List PortInput) : (s.accept r rest).ctr = s.ctr := rfl
@[simp] theorem State.accept_inputs (r : Request) (rest : List PortInput) : (s.accept r rest).inputs = rest := rfl
@[simp] theorem State.accept_inFlight (r : Request) (rest : List PortInput) : (s.accept r rest).inFlight = some r := rfl
@[simp] theorem State.accept_response (r : Request) (rest : List PortInput) : (s.accept r rest).response = s.response := rfl
@[simp] theorem State.accept_tuple (r : Request) (rest : List PortInput) : (s.accept r rest).tuple = s.tuple := rfl

/-! ### withRequest -/

@[simp] theorem State.withRequest_seeded (r : Request) : (s.withRequest r).seeded = s.seeded := rfl
@[simp] theorem State.withRequest_var (r : Request) : (s.withRequest r).var = s.var := rfl
@[simp] theorem State.withRequest_rk (r : Request) : (s.withRequest r).rk = s.rk := rfl
@[simp] theorem State.withRequest_ctr (r : Request) : (s.withRequest r).ctr = s.ctr := rfl
@[simp] theorem State.withRequest_inputs (r : Request) : (s.withRequest r).inputs = .request r :: s.inputs := rfl
@[simp] theorem State.withRequest_inFlight (r : Request) : (s.withRequest r).inFlight = s.inFlight := rfl
@[simp] theorem State.withRequest_response (r : Request) : (s.withRequest r).response = s.response := rfl
@[simp] theorem State.withRequest_tuple (r : Request) : (s.withRequest r).tuple = s.tuple := rfl

/-! ### The tuple and the reset state -/

@[simp] theorem State.clear_tuple : s.clear.tuple = State.reset.tuple := rfl
@[simp] theorem State.reset_seeded : State.reset.seeded = false := rfl
@[simp] theorem State.reset_var : State.reset.var = 0 := rfl
@[simp] theorem State.reset_rk : State.reset.rk = Vector.replicate 15 0 := rfl
@[simp] theorem State.reset_ctr : State.reset.ctr = 0 := rfl
@[simp] theorem State.reset_inputs : State.reset.inputs = [] := rfl
@[simp] theorem State.reset_inFlight : State.reset.inFlight = none := rfl
@[simp] theorem State.reset_response : State.reset.response = none := rfl

/-- Equal tuples are equal registers. -/
theorem State.tuple_eq_iff {s t : State} : s.tuple = t.tuple ↔
    s.seeded = t.seeded ∧ s.var = t.var ∧ s.rk = t.rk ∧ s.ctr = t.ctr := by
  simp [State.tuple]

/-! ### DIN of the request in flight -/

@[simp] theorem State.accept_din (r : Request) (rest : List PortInput) : (s.accept r rest).din = r.din := rfl

theorem State.din_of_inFlight {s : State} {r : Request} (h : s.inFlight = some r) : s.din = r.din := by
  simp [State.din, h]

/-! ### What depends on the registers alone -/

@[simp] theorem State.accept_roundKey (r : Request) (rest : List PortInput) :
    (s.accept r rest).roundKey = s.roundKey := rfl
@[simp] theorem State.accept_encryptBlock (r : Request) (rest : List PortInput) :
    (s.accept r rest).encryptBlock = s.encryptBlock := rfl
@[simp] theorem State.accept_statusWord (r : Request) (rest : List PortInput) :
    statusWord (s.accept r rest) = statusWord s := rfl

end Sys2Proof.Machine
end

