-- ==== Sys2Proof/Laws/Ops.lean ====
section
/-!
SUPPORT. What each shared operation can do, said once: the checks of R140, respond and raise.
-/
namespace Sys2Proof.Machine

variable {s t : State} {go : Result}

@[simp] theorem respondOk_eq (d : Word) (s : State) : respondOk d s = .next (s.respond .ok d) := rfl
@[simp] theorem raise_eq (e : Status) (s : State) : raise e s = .next (s.respond e 0) := rfl
@[simp] theorem raiseIllegal_eq (w : Illegal) (s : State) :
    raiseIllegal w s = .next (s.respond .errIllegal 0) := rfl

theorem whenSeeded_seeded (h : s.seeded = true) : whenSeeded s go = go := by simp [whenSeeded, h]
theorem whenSeeded_unseeded (h : s.seeded = false) : whenSeeded s go = .next (s.respond .errUnseeded 0) := by
  simp [whenSeeded, h]
theorem whenWideCounter_wide (h : cwOf s.var ≠ 64) : whenWideCounter s go = go := by
  simp [whenWideCounter, h]
theorem whenWideCounter_narrow (h : cwOf s.var = 64) :
    whenWideCounter s go = .next (s.respond .errVariant 0) := by simp [whenWideCounter, h]
theorem whenInRange_inside {idx : BitVec 4} (h : idx.toNat ≤ nrOf s.var) : whenInRange idx s go = go := by
  simp [whenInRange, Nat.not_lt.mpr h]
theorem whenInRange_outside {idx : BitVec 4} (h : nrOf s.var < idx.toNat) :
    whenInRange idx s go = .next (s.respond .errRange 0) := by simp [whenInRange, h]

/-- A seeded check lets the command go on, or ends it with ERR_UNSEEDED. -/
theorem whenSeeded_cases (h : whenSeeded s go = .next t) :
    (s.seeded = true ∧ go = .next t) ∨ (s.seeded = false ∧ t = s.respond .errUnseeded 0) := by
  cases hs : s.seeded
  · rw [whenSeeded_unseeded hs] at h; cases h; exact .inr ⟨rfl, rfl⟩
  · rw [whenSeeded_seeded hs] at h; exact .inl ⟨rfl, h⟩

/-- A variant check lets the command go on, or ends it with ERR_VARIANT. -/
theorem whenWideCounter_cases (h : whenWideCounter s go = .next t) :
    (cwOf s.var ≠ 64 ∧ go = .next t) ∨ (cwOf s.var = 64 ∧ t = s.respond .errVariant 0) := by
  by_cases hc : cwOf s.var = 64
  · rw [whenWideCounter_narrow hc] at h; cases h; exact .inr ⟨hc, rfl⟩
  · rw [whenWideCounter_wide hc] at h; exact .inl ⟨hc, h⟩

/-- A range check lets the command go on, or ends it with ERR_RANGE. -/
theorem whenInRange_cases {idx : BitVec 4} (h : whenInRange idx s go = .next t) :
    (idx.toNat ≤ nrOf s.var ∧ go = .next t) ∨ (nrOf s.var < idx.toNat ∧ t = s.respond .errRange 0) := by
  by_cases hc : nrOf s.var < idx.toNat
  · rw [whenInRange_outside hc] at h; cases h; exact .inr ⟨hc, rfl⟩
  · rw [whenInRange_inside (by omega)] at h; exact .inl ⟨by omega, h⟩

/-! ### The parameters of a variant -/

theorem cwOf_eq_64 {var : BitVec 2} : cwOf var = 64 ↔ var.getLsbD 0 = false := by
  unfold cwOf; split <;> simp_all
theorem cwOf_ne_64 {var : BitVec 2} : cwOf var ≠ 64 ↔ var.getLsbD 0 = true := by
  rw [ne_eq, cwOf_eq_64]; simp
theorem cwOf_eq_128 {var : BitVec 2} : cwOf var = 128 ↔ var.getLsbD 0 = true := by
  unfold cwOf; split <;> simp_all
theorem nrOf_le (var : BitVec 2) : nrOf var ≤ 14 := by unfold nrOf; split <;> omega
theorem nkOf_add_six (var : BitVec 2) : nkOf var + 6 = nrOf var := by unfold nkOf nrOf; split <;> rfl

end Sys2Proof.Machine
end

