-- ==== Sys2Proof/Laws/Exec.lean ====
section
/-!
SUPPORT. What each command does, as equations on `exec`; the check that fails is the hypothesis.
-/
namespace Sys2Proof.Machine

variable {s t : State}

@[simp] theorem exec_nop (s : State) : exec .nop s = .next (s.respond .ok 0) := rfl

@[simp] theorem exec_seed (arg : BitVec 4) (s : State) : exec (.seed arg) s =
    .next ((s.loadSeed (seedVar arg) (seedRoundKeys (seedVar arg) (seedKey (seedVar arg) s.din))
      (seedCtr (seedVar arg) s.din)).respond .ok 0) := rfl

@[simp] theorem exec_status (s : State) : exec .status s = .next (s.respond .ok (statusWord s)) := rfl

@[simp] theorem exec_zeroize (s : State) : exec .zeroize s = .next (s.clear.respond .ok 0) := rfl

theorem exec_next_seeded (h : s.seeded = true) : exec .next s =
    .next ((s.setCtr (ctrInc s.ctr (cwOf s.var))).respond .ok
      (fromLEBlock (s.encryptBlock (le128 s.ctr)))) := whenSeeded_seeded h

theorem exec_counter_seeded (h : s.seeded = true) : exec .counter s =
    .next (s.respond .ok
      (if cwOf s.var = 64 then (s.ctr.extractLsb' 0 64).setWidth 128 else s.ctr)) := whenSeeded_seeded h

theorem exec_jump_wide (h : s.seeded = true) (hw : cwOf s.var ≠ 64) : exec .jump s =
    .next ((s.setCtr (jumpDistance + s.ctr)).respond .ok s.ctr) :=
  (whenSeeded_seeded h).trans (whenWideCounter_wide hw)

theorem exec_longJump_wide (h : s.seeded = true) (hw : cwOf s.var ≠ 64) : exec .longJump s =
    .next ((s.setCtr (longJumpDistance + s.ctr)).respond .ok s.ctr) :=
  (whenSeeded_seeded h).trans (whenWideCounter_wide hw)

theorem exec_jump_narrow (h : s.seeded = true) (hw : cwOf s.var = 64) :
    exec .jump s = .next (s.respond .errVariant 0) :=
  (whenSeeded_seeded h).trans (whenWideCounter_narrow hw)

theorem exec_longJump_narrow (h : s.seeded = true) (hw : cwOf s.var = 64) :
    exec .longJump s = .next (s.respond .errVariant 0) :=
  (whenSeeded_seeded h).trans (whenWideCounter_narrow hw)

theorem exec_encrypt_seeded (h : s.seeded = true) : exec .encrypt s =
    .next (s.respond .ok (fromLEBlock (s.encryptBlock (plaintext s.din)))) := whenSeeded_seeded h

theorem exec_readRk_inside {idx : BitVec 4} (h : s.seeded = true) (hi : idx.toNat ≤ nrOf s.var) :
    exec (.readRk idx) s = .next (s.respond .ok (s.roundKey idx.toNat)) :=
  (whenSeeded_seeded h).trans (whenInRange_inside hi)

theorem exec_readRk_outside {idx : BitVec 4} (h : s.seeded = true) (hi : nrOf s.var < idx.toNat) :
    exec (.readRk idx) s = .next (s.respond .errRange 0) :=
  (whenSeeded_seeded h).trans (whenInRange_outside hi)

/-! ### Every command at once -/

/-- Whatever its checks say, a command ends by responding in a state that differs from `s` in its registers
only, and an error leaves those as they were. -/
theorem exec_cases (i : Instr) (s : State) : ∃ (u : State) (st : Status) (d : Word),
    exec i s = .next (u.respond st d) ∧ u.inputs = s.inputs ∧ (st ≠ .ok → u = s ∧ d = 0) := by
  cases i with
  | nop => exact ⟨s, .ok, 0, rfl, rfl, by simp⟩
  | seed arg => exact ⟨_, .ok, 0, rfl, rfl, by simp⟩
  | status => exact ⟨s, .ok, _, rfl, rfl, by simp⟩
  | zeroize => exact ⟨s.clear, .ok, 0, rfl, rfl, by simp⟩
  | next =>
    cases h : s.seeded
    · exact ⟨s, .errUnseeded, 0, whenSeeded_unseeded h, rfl, by simp⟩
    · exact ⟨_, .ok, _, exec_next_seeded h, rfl, by simp⟩
  | counter =>
    cases h : s.seeded
    · exact ⟨s, .errUnseeded, 0, whenSeeded_unseeded h, rfl, by simp⟩
    · exact ⟨_, .ok, _, exec_counter_seeded h, rfl, by simp⟩
  | jump =>
    cases h : s.seeded
    · exact ⟨s, .errUnseeded, 0, whenSeeded_unseeded h, rfl, by simp⟩
    · by_cases hw : cwOf s.var = 64
      · exact ⟨s, .errVariant, 0, exec_jump_narrow h hw, rfl, by simp⟩
      · exact ⟨_, .ok, _, exec_jump_wide h hw, State.setCtr_inputs .., by simp⟩
  | longJump =>
    cases h : s.seeded
    · exact ⟨s, .errUnseeded, 0, whenSeeded_unseeded h, rfl, by simp⟩
    · by_cases hw : cwOf s.var = 64
      · exact ⟨s, .errVariant, 0, exec_longJump_narrow h hw, rfl, by simp⟩
      · exact ⟨_, .ok, _, exec_longJump_wide h hw, State.setCtr_inputs .., by simp⟩
  | encrypt =>
    cases h : s.seeded
    · exact ⟨s, .errUnseeded, 0, whenSeeded_unseeded h, rfl, by simp⟩
    · exact ⟨_, .ok, _, exec_encrypt_seeded h, rfl, by simp⟩
  | readRk idx =>
    cases h : s.seeded
    · exact ⟨s, .errUnseeded, 0, whenSeeded_unseeded h, rfl, by simp⟩
    · by_cases hi : idx.toNat ≤ nrOf s.var
      · exact ⟨_, .ok, _, exec_readRk_inside h hi, rfl, by simp⟩
      · exact ⟨s, .errRange, 0, exec_readRk_outside h (by omega), rfl, by simp⟩

/-- Everything a command can do to the registers: load a seed, clear them, move CTR of a seeded block, or
leave them alone. -/
theorem exec_inversion {i : Instr} {s t : State} (h : exec i s = .next t) :
    (∃ arg, i = .seed arg ∧
      t = (s.loadSeed (seedVar arg) (seedRoundKeys (seedVar arg) (seedKey (seedVar arg) s.din))
        (seedCtr (seedVar arg) s.din)).respond .ok 0) ∨
    (i = .zeroize ∧ t = s.clear.respond .ok 0) ∨
    (s.seeded = true ∧ i = .next ∧ t = (s.setCtr (ctrInc s.ctr (cwOf s.var))).respond .ok
      (fromLEBlock (s.encryptBlock (le128 s.ctr)))) ∨
    (s.seeded = true ∧ cwOf s.var ≠ 64 ∧ i = .jump ∧
      t = (s.setCtr (jumpDistance + s.ctr)).respond .ok s.ctr) ∨
    (s.seeded = true ∧ cwOf s.var ≠ 64 ∧ i = .longJump ∧
      t = (s.setCtr (longJumpDistance + s.ctr)).respond .ok s.ctr) ∨
    (i ≠ .zeroize ∧ (∀ arg, i ≠ .seed arg) ∧ (i = .next → s.seeded = false) ∧ ∃ st d, t = s.respond st d ∧ (st ≠ .ok → d = 0)) := by
  cases i with
  | nop => cases h; exact .inr (.inr (.inr (.inr (.inr ⟨by simp, by simp, by simp [*], _, _, rfl, by simp⟩))))
  | seed arg => cases h; exact .inl ⟨arg, rfl, rfl⟩
  | status => cases h; exact .inr (.inr (.inr (.inr (.inr ⟨by simp, by simp, by simp [*], _, _, rfl, by simp⟩))))
  | zeroize => cases h; exact .inr (.inl ⟨rfl, rfl⟩)
  | next =>
    obtain ⟨hs, h⟩ | ⟨hs, rfl⟩ := whenSeeded_cases h
    · cases h; exact .inr (.inr (.inl ⟨hs, rfl, rfl⟩))
    · exact .inr (.inr (.inr (.inr (.inr ⟨by simp, by simp, by simp [*], _, _, rfl, by simp⟩))))
  | jump =>
    obtain ⟨hs, h⟩ | ⟨hs, rfl⟩ := whenSeeded_cases h
    · obtain ⟨hw, h⟩ | ⟨-, rfl⟩ := whenWideCounter_cases h
      · cases h; exact .inr (.inr (.inr (.inl ⟨hs, hw, rfl, rfl⟩)))
      · exact .inr (.inr (.inr (.inr (.inr ⟨by simp, by simp, by simp [*], _, _, rfl, by simp⟩))))
    · exact .inr (.inr (.inr (.inr (.inr ⟨by simp, by simp, by simp [*], _, _, rfl, by simp⟩))))
  | longJump =>
    obtain ⟨hs, h⟩ | ⟨hs, rfl⟩ := whenSeeded_cases h
    · obtain ⟨hw, h⟩ | ⟨-, rfl⟩ := whenWideCounter_cases h
      · cases h; exact .inr (.inr (.inr (.inr (.inl ⟨hs, hw, rfl, rfl⟩))))
      · exact .inr (.inr (.inr (.inr (.inr ⟨by simp, by simp, by simp [*], _, _, rfl, by simp⟩))))
    · exact .inr (.inr (.inr (.inr (.inr ⟨by simp, by simp, by simp [*], _, _, rfl, by simp⟩))))
  | counter =>
    obtain ⟨-, h⟩ | ⟨hs, rfl⟩ := whenSeeded_cases h
    · cases h; exact .inr (.inr (.inr (.inr (.inr ⟨by simp, by simp, by simp [*], _, _, rfl, by simp⟩))))
    · exact .inr (.inr (.inr (.inr (.inr ⟨by simp, by simp, by simp [*], _, _, rfl, by simp⟩))))
  | encrypt =>
    obtain ⟨-, h⟩ | ⟨hs, rfl⟩ := whenSeeded_cases h
    · cases h; exact .inr (.inr (.inr (.inr (.inr ⟨by simp, by simp, by simp [*], _, _, rfl, by simp⟩))))
    · exact .inr (.inr (.inr (.inr (.inr ⟨by simp, by simp, by simp [*], _, _, rfl, by simp⟩))))
  | readRk idx =>
    obtain ⟨-, h⟩ | ⟨hs, rfl⟩ := whenSeeded_cases h
    · obtain ⟨-, h⟩ | ⟨-, rfl⟩ := whenInRange_cases h
      · cases h; exact .inr (.inr (.inr (.inr (.inr ⟨by simp, by simp, by simp [*], _, _, rfl, by simp⟩))))
      · exact .inr (.inr (.inr (.inr (.inr ⟨by simp, by simp, by simp [*], _, _, rfl, by simp⟩))))
    · exact .inr (.inr (.inr (.inr (.inr ⟨by simp, by simp, by simp [*], _, _, rfl, by simp⟩))))

end Sys2Proof.Machine
end

