-- ==== Sys2Proof/Laws/PerInstr.lean ====
section
/-!
SUPPORT. The per-instruction family `EncodedWordDecodes`: the encoder's word of a well-formed command decodes to it.
-/
namespace Sys2Proof.Laws.EncodedWordDecodes

/-- The word that encodes a well-formed `i` decodes to `i`. -/
def Statement (i : Instr) : Prop := i.WellFormed → decode (encode i) = .command i

theorem nop : Statement .nop := fun _ => rfl
theorem seed (arg : BitVec 4) : Statement (.seed arg) := by
  revert arg; unfold Statement Instr.WellFormed; decide
theorem next : Statement .next := fun _ => rfl
theorem counter : Statement .counter := fun _ => rfl
theorem jump : Statement .jump := fun _ => rfl
theorem longJump : Statement .longJump := fun _ => rfl
theorem encrypt : Statement .encrypt := fun _ => rfl
theorem readRk (idx : BitVec 4) : Statement (.readRk idx) := by
  revert idx; unfold Statement Instr.WellFormed; decide
theorem zeroize : Statement .zeroize := fun _ => rfl
theorem status : Statement .status := fun _ => rfl

end Sys2Proof.Laws.EncodedWordDecodes
end

