-- ==== Sys2Proof/Laws/Step.lean ====
section
/-!
SUPPORT. What a step does for each thing that can stand first on the port, and the one lemma a host's use of the
block needs: `perform` is the command's own effect.
-/
namespace Sys2Proof.Machine

variable {s : State} {r : Request} {rest : List PortInput}

theorem step_idle (h : s.inputs = []) : step s = .next s := by simp [step, h, idle]

theorem step_reset (h : s.inputs = .reset :: rest) : step s = takeReset rest s := by simp [step, h]

theorem step_resetInFlight (h : s.inputs = .resetInFlight r :: rest) :
    step s = dropInFlight r rest s := by simp [step, h]

theorem step_command {i : Instr} (h : s.inputs = .request r :: rest) (hd : decode r.cmd = .command i) :
    step s = exec i (s.accept r rest) := by simp [step, h, hd]

theorem step_illegal {why : Illegal} (h : s.inputs = .request r :: rest) (hd : decode r.cmd = .illegal why) :
    step s = .next ((s.accept r rest).respond .errIllegal 0) := by simp [step, h, hd]

/-- The request's own state: what `step` hands to `exec` when `r` is put first on the port of `s`. -/
@[simp] theorem State.withRequest_accept (s : State) (r : Request) :
    (s.withRequest r).accept r s.inputs = s.accept r s.inputs := rfl

theorem step_withRequest_command {i : Instr} (hd : decode r.cmd = .command i) :
    step (s.withRequest r) = exec i (s.accept r s.inputs) := step_command rfl hd

theorem step_withRequest_illegal {why : Illegal} (hd : decode r.cmd = .illegal why) :
    step (s.withRequest r) = .next ((s.accept r s.inputs).respond .errIllegal 0) := step_illegal rfl hd

/-- A step with `r` first on the port gives the state `perform` names. -/
theorem perform_of_step {t : State} (h : step (s.withRequest r) = .next t) : s.perform r = t := by
  simp [State.perform, h]

theorem perform_command {i : Instr} {t : State} (hd : decode r.cmd = .command i)
    (h : exec i (s.accept r s.inputs) = .next t) : s.perform r = t :=
  perform_of_step ((step_withRequest_command hd).trans h)

theorem perform_illegal {why : Illegal} (hd : decode r.cmd = .illegal why) :
    s.perform r = (s.accept r s.inputs).respond .errIllegal 0 :=
  perform_of_step (step_withRequest_illegal hd)


/-- Serving a request is one step, and it answers next. -/
theorem step_withRequest (s : State) (r : Request) : step (s.withRequest r) = .next (s.perform r) := by
  cases hd : decode r.cmd with
  | command i =>
    obtain ⟨u, st, d, h, -, -⟩ := exec_cases i (s.accept r s.inputs)
    rw [perform_command hd h, step_withRequest_command hd, h]
  | illegal w => rw [perform_illegal hd, step_withRequest_illegal hd]

/-- Serving a legal request is its command, with the request in flight. -/
theorem exec_perform {i : Instr} (hd : decode r.cmd = .command i) :
    exec i (s.accept r s.inputs) = .next (s.perform r) := by
  rw [← step_withRequest_command hd, step_withRequest]

/-- One step of a run of several: a step that answers next goes on with the rest. -/
theorem core_run_succ {n : Nat} {s t : State} (h : step s = .next t) :
    Sys2Proof.core.run (n + 1) s = Sys2Proof.core.run n t := by
  have hc : Sys2Proof.core.step s = .next t := h
  simp only [Host.Core.run, hc]

/-! ### Places of a stream -/

@[simp] theorem streamCounter_zero (var : BitVec 2) (c : Word) : streamCounter var c 0 = c := rfl

@[simp] theorem streamCounter_succ (var : BitVec 2) (c : Word) (j : Nat) :
    streamCounter var c (j + 1) = ctrInc (streamCounter var c j) (cwOf var) := rfl

/-- Place j of a stream is j increments from its start. -/
theorem streamCounter_eq_iterate (var : BitVec 2) (c : Word) (j : Nat) :
    streamCounter var c j = (fun x => ctrInc x (cwOf var))^[j] c := by
  induction j with
  | zero => rfl
  | succ j ih => rw [Function.iterate_succ_apply', streamCounter_succ, ih]

end Sys2Proof.Machine
end

