-- ==== Sys2Proof/Tests/Slice0.lean ====
section
/-!
SUPPORT. Tests on the spec's own examples and vectors, and one witness for every obligation with hypotheses.
Expected values are those of the rule or of the section of 95_test_vectors.md that a docstring names.
-/
namespace Sys2Proof.Machine.Tests

/-! ### Helpers -/

/-- The n bytes that the hex digits of `v` spell, byte 0 first. -/
def hexString (n v : Nat) : List Byte := (List.range n).map fun i => BitVec.ofNat 8 (v >>> (8 * (n - 1 - i)))

/-- The bytes 00 01 02 … -/
def counting (n : Nat) : List Byte := (List.range n).map (BitVec.ofNat 8 ·)

/-- A block from the hex digits of `v`. -/
def blockOf (v : Nat) : Block := Vector.ofFn fun i => BitVec.ofNat 8 (v >>> (8 * (15 - i.val)))

/-- A state whose key registers hold 1, 2, 3, …: enough for a command that runs no cipher. -/
def small (seeded : Bool) (var : BitVec 2) (ctr : Word) : State :=
  { State.reset with seeded := seeded, var := var, ctr := ctr, rk := Vector.ofFn fun i => BitVec.ofNat 128 (i.val + 1) }

/-- A state that a SEED of the key 00 01 02 … left. -/
def keyed (var : BitVec 2) (ctr : Word) : State :=
  State.reset.loadSeed var (seedRoundKeys var (counting (keyBytesOf var))) ctr

/-- A request with DIN bytes `data`. -/
def req (cmd : Byte) (data : List Byte) : Request := ⟨cmd, padDin data⟩

/-- What a step of `s` serving `r` leaves: the response, SEEDED, VAR and CTR. -/
def after (s : State) (r : Request) : Option Response × Bool × BitVec 2 × Word :=
  ((s.perform r).response, (s.perform r).seeded, (s.perform r).var, (s.perform r).ctr)

/-- The next state, where the outcome is one. -/
def nextOf (o : Result) : Option State :=
  match o with
  | .next t => some t
  | .fault _ => none
  | .refused _ => none

/-! ### WellFormed: an ill-formed term for each check, refused -/

theorem test_seed_reserved_bit_2_refused : Instr.wf (.seed 0b0100) = false := by decide
theorem test_seed_reserved_bit_3_refused : Instr.wf (.seed 0b1011) = false := by decide
theorem test_line_seed_length_refused : (AsmLine.seed 0b10 (counting 32)).assemble = none := by decide
theorem test_line_encrypt_length_refused : (AsmLine.encrypt (counting 15)).assemble = none := by decide
theorem test_line_index_refused : (AsmLine.readRk 16).assemble = none := by decide
theorem test_line_din_length_refused : (AsmLine.word 0xA0 (counting 49)).assemble = none := by decide

/-! ### Decode: words written bit by bit from R61 to R66 -/

theorem test_word_nop : decode 0b0000_0000 = .command .nop := by decide
theorem test_word_nop_arg : decode 0b0000_0001 = .illegal .reservedArg := by decide
theorem test_word_seed_a128c64 : decode 0b0001_0000 = .command (.seed 0b0000) := by decide
theorem test_word_seed_a256c128 : decode 0b0001_0011 = .command (.seed 0b0011) := by decide
theorem test_word_seed_reserved : decode 0b0001_0111 = .illegal .reservedVariantBits := by decide
theorem test_word_next : decode 0b0010_0000 = .command .next := by decide
theorem test_word_counter : decode 0b0011_0000 = .command .counter := by decide
theorem test_word_jump : decode 0b0100_0000 = .command .jump := by decide
theorem test_word_long_jump : decode 0b0101_0000 = .command .longJump := by decide
theorem test_word_encrypt : decode 0b0110_0000 = .command .encrypt := by decide
theorem test_word_read_rk_10 : decode 0b0111_1010 = .command (.readRk 10) := by decide
theorem test_word_read_rk_15 : decode 0b0111_1111 = .command (.readRk 15) := by decide
theorem test_word_zeroize : decode 0b1000_0000 = .command .zeroize := by decide
theorem test_word_zeroize_arg : decode 0b1000_0001 = .illegal .reservedArg := by decide
theorem test_word_status : decode 0b1001_0000 = .command .status := by decide
theorem test_word_reserved_low : decode 0b1010_0000 = .illegal .reservedOpcode := by decide
theorem test_word_reserved_high : decode 0b1111_1111 = .illegal .reservedOpcode := by decide

/-- The two fixed entry points, on READ_RK 10: the table word decodes, and the next step from reset runs it. -/
theorem test_table_word : decodeTableWord 8 0x7A = some (.readRk 10) := by decide

theorem test_fetch_word_runs_first :
    nextOf (step (State.reset.withFetchWord 8 0x90)) = some { State.reset with response := some ⟨.ok, 1⟩ } := by decide

/-- P1, the DOUT bytes of the first NEXT: the low byte of the value is DOUT byte 0 (R41). -/
theorem test_dout_bytes : (Response.doutBytes ⟨.ok, 0x79d8c8a162814f6f825b8f87373ba1c6⟩) =
    blockOf 0xc6a13b37878f5b826f4f8162a1c8d879 := by decide

/-! ### The cipher core (sections 3.1 to 3.4) -/

theorem test_xtime_chain : [0x57, 0xAE, 0x47, 0x8E, 0x80, 0xFF].map xtime = [0xAE, 0x47, 0x8E, 0x07, 0x1B, 0xE5] := by
  decide
theorem test_gf_product : gfMul 0x57 0x83 = 0xC1 ∧ gfMul 0x57 0x13 = 0xFE := by decide +kernel
theorem test_gf_inverse : [0x00, 0x01, 0x02, 0x53].map gfInv = [0x00, 0x01, 0x8D, 0xCA] := by decide +kernel
theorem test_sbox_values : [0x00, 0x01, 0x53, 0x52, 0xFF, 0x10, 0xCF].map sbox = [0x63, 0x7C, 0xED, 0x00, 0x16, 0xCA, 0x8A] := by
  decide +kernel
theorem test_sub_bytes : subBytes (blockOf 0x000102030405060708090a0b0c0d0e0f) =
    blockOf 0x637c777bf26b6fc53001672bfed7ab76 := by decide +kernel
theorem test_shift_rows : shiftRows (blockOf 0x000102030405060708090a0b0c0d0e0f) =
    blockOf 0x00050a0f04090e03080d02070c01060b := by decide +kernel
theorem test_mix_columns : mixColumns (blockOf 0xdb135345f20a225cd4d4d4d52d26314c) =
    blockOf 0x8e4da1bc9fdc589dd5d5d7d64d7ebdf8 := by decide +kernel
/-- R110: round 1 of FIPS-197 C.1 with rk[1]. -/
theorem test_full_round : fullRound (blockOf 0x00102030405060708090a0b0c0d0e0f0) (blockOf 0xd6aa74fdd2af72fadaa678f1d6ab76fe) =
    blockOf 0x89d810e8855ace682d1843d8cb128fe4 := by decide +kernel
/-- R111: the last round of FIPS-197 C.1. -/
theorem test_final_round : finalRound (blockOf 0xbd6e7c3df2b5779e0b61216e8b10b689) (blockOf 0x13111d7fe3944a17f307a78b4d2b30c5) =
    blockOf 0x69c4e0d86a7b0430d8cdb78070b4c55a := by decide +kernel
theorem test_key_words : rotWord #v[0x09, 0xCF, 0x4F, 0x3C] = #v[0xCF, 0x4F, 0x3C, 0x09] ∧
    subWord #v[0xCF, 0x4F, 0x3C, 0x09] = #v[0x8A, 0x84, 0xEB, 0x01] := by decide +kernel
/-- F1: the first and the last word made for the key of FIPS-197 A.1. -/
theorem test_key_expansion_128 :
    let w := keyExpansion 4 (hexString 16 0x2b7e151628aed2a6abf7158809cf4f3c)
    w.length = 44 ∧ w[4]? = some #v[0xA0, 0xFA, 0xFE, 0x17] ∧ w[43]? = some #v[0xB6, 0x63, 0x0C, 0xA6] := by
  decide +kernel

/-! ### The commands -/

theorem test_nop_on_reset : after State.reset (req 0x00 []) = (some ⟨.ok, 0⟩, false, 0, 0) := by decide
theorem test_nop_arg : after (small true 1 5) (req 0x0F []) = (some ⟨.errIllegal, 0⟩, true, 1, 5) := by decide

/-- R141's example: nonce bytes 11, counter bytes 22. -/
theorem test_seed_c64_example :
    after State.reset (req 0x10 (counting 16 ++ List.replicate 8 0x11 ++ List.replicate 8 0x22)) =
      (some ⟨.ok, 0⟩, true, 0, 0x11111111111111112222222222222222) := by decide +kernel
/-- K4: the round keys 1, 2 and 14 that a SEED.A256C128 of the key 00 … 1f loads, and P6's counter 9. -/
theorem test_seed_a256_round_keys :
    let t := State.reset.perform (req 0x13 (counting 32 ++ [0x09]))
    t.ctr = 9 ∧ t.rk[1] = 0x1f1e1d1c1b1a19181716151413121110 ∧ t.rk[14] = 0x36de686d3cc21a37e97909bfcc79fc24 := by
  decide +kernel

/-- P1, line 2. -/
theorem test_next_a128c128 :
    after (keyed 1 0) (req 0x20 []) = (some ⟨.ok, 0x79d8c8a162814f6f825b8f87373ba1c6⟩, true, 1, 1) := by decide +kernel
/-- P2, line 3: the low half wraps, the nonce stays. -/
theorem test_next_c64_wrap : after (keyed 0 0x0123456789abcdefffffffffffffffff) (req 0x20 []) =
    (some ⟨.ok, 0xc2fd029709696b1f699cc58fb98d544e⟩, true, 0, 0x0123456789abcdef0000000000000000) := by decide +kernel
/-- Section 3.6's table of CTR_INC, row 2: with CW = 128 the carry crosses bit 63. -/
theorem test_ctr_inc_carry : ctrInc 0x0000000000000000ffffffffffffffff 128 = 0x00000000000000010000000000000000 := by decide

theorem test_counter_c64_hides_nonce : after (small true 0 0x0123456789abcdefffffffffffffffff) (req 0x30 []) =
    (some ⟨.ok, 0x0000000000000000ffffffffffffffff⟩, true, 0, 0x0123456789abcdefffffffffffffffff) := by decide
theorem test_counter_unseeded : after State.reset (req 0x30 []) = (some ⟨.errUnseeded, 0⟩, false, 0, 0) := by decide

/-- J4. -/
theorem test_jump_wrap : after (small true 1 0xffffffffffffffff0000000000000003) (req 0x40 []) =
    (some ⟨.ok, 0xffffffffffffffff0000000000000003⟩, true, 1, 3) := by decide
/-- J5. -/
theorem test_jump_c64 : after (small true 2 5) (req 0x40 []) = (some ⟨.errVariant, 0⟩, true, 2, 5) := by decide
/-- L1. -/
theorem test_long_jump : after (small true 3 0x00000000000000020000000000000005) (req 0x50 []) =
    (some ⟨.ok, 0x00000000000000020000000000000005⟩, true, 3, 0x00000001000000020000000000000005) := by decide
/-- L3. -/
theorem test_long_jump_wrap : after (small true 1 0xffffffff000000000000000000000007) (req 0x50 []) =
    (some ⟨.ok, 0xffffffff000000000000000000000007⟩, true, 1, 7) := by decide

/-- E2, with CTR = 9 kept (P6). -/
theorem test_encrypt_fips_c1 : after (keyed 1 9) (req 0x60 (hexString 16 0x00112233445566778899aabbccddeeff)) =
    (some ⟨.ok, 0x5ac5b47080b7cdd830047b6ad8e0c469⟩, true, 1, 9) := by decide +kernel
/-- E3, on a C64 variant: the same cipher. -/
theorem test_encrypt_fips_c3 : after (keyed 2 9) (req 0x60 (hexString 16 0x00112233445566778899aabbccddeeff)) =
    (some ⟨.ok, 0x8960494b9049fceabf456751cab7a28e⟩, true, 2, 9) := by decide +kernel

/-- K3. -/
theorem test_read_rk_10 : after (keyed 1 2) (req 0x7A []) =
    (some ⟨.ok, 0xc5302b4d8ba707f3174a94e37f1d1113⟩, true, 1, 2) := by decide +kernel
/-- ER7. -/
theorem test_read_rk_range : after (small true 0 2) (req 0x7B []) = (some ⟨.errRange, 0⟩, true, 0, 2) := by decide

theorem test_zeroize : ((small true 3 7).perform (req 0x80 [])).tuple = State.reset.tuple := by decide
theorem test_zeroize_arg : after (small true 3 7) (req 0x81 []) = (some ⟨.errIllegal, 0⟩, true, 3, 7) := by decide

theorem test_status_a256c128 : after (small true 3 7) (req 0x90 []) = (some ⟨.ok, 0xF⟩, true, 3, 7) := by decide
theorem test_status_a256c64 : after (small true 2 7) (req 0x90 []) = (some ⟨.ok, 0xB⟩, true, 2, 7) := by decide

/-- ER2, ER4 and ER5: the first error in the order of R206. -/
theorem test_error_priority :
    ((State.reset.perform (req 0x41 [])).response, (State.reset.perform (req 0x7F [])).response,
      ((small true 0 0).perform (req 0x4F [])).response) =
    (some ⟨.errIllegal, 0⟩, some ⟨.errUnseeded, 0⟩, some ⟨.errIllegal, 0⟩) := by decide

/-! ### Reset and the port -/

/-- R220: RESET with a SEED in flight drops it. -/
theorem test_reset_in_flight :
    nextOf (step { small true 3 7 with inputs := [.resetInFlight (req 0x10 []), .reset] }) =
      some { State.reset with inputs := [.reset] } := by decide
theorem test_idle : nextOf (step (small true 3 7)) = some (small true 3 7) := by decide

/-! ### The assembler (R71) -/

/-- Comments, an operand in decimal and a raw word with raw DIN. -/
theorem test_assembler :
    assembleText ("; KAT".toList ++ ['\n'] ++ "READ_RK 10 ; last".toList ++ ['\n'] ++ ".word a0 .din 01ff".toList) =
      some [req 0x7A [], req 0xA0 [0x01, 0xFF]] := by decide +kernel
theorem test_assembler_refuses : assembleText "READ_RK 16".toList = none := by decide +kernel

/-! ### Witnesses: for each obligation with hypotheses, concrete states and operands that meet them all

The name after `witness_` is the obligation's. Where a statement has several clauses there is a case for each, at
the boundary values of its range. -/

theorem witness_DecodeFollowsOpcodeMap : (0xA#4 ≤ 0xA#4) ∧ (0xA#4 ≤ 0xF#4) ∧ ¬ (0xA#4 ≤ 0x9#4) := by decide

/-- The words that R201 lists. -/
def listedIllegal (c : Nat) : Bool :=
  0xA0 ≤ c || (0x14 ≤ c && c ≤ 0x1F) || ([0x0, 0x2, 0x3, 0x4, 0x5, 0x6, 0x8, 0x9].contains (c / 16) && c % 16 != 0)

theorem witness_IllegalWordsRaiseErrIllegal :
    [0xA0, 0xFF, 0x14, 0x1F, 0x01, 0x0F, 0x21, 0x6F, 0x81, 0x9F].all listedIllegal = true ∧
    [0x00, 0x10, 0x13, 0x20, 0x60, 0x70, 0x7F, 0x80, 0x90].all (fun c => !listedIllegal c) = true := by decide

theorem witness_DecodeAndEncodeAgree : decode 0x13 = .command (.seed 3) ∧ Instr.WellFormed (.seed 3) ∧
    encode (.seed 3) = 0x13 ∧ decode 0x7F = .command (.readRk 15) := by decide

theorem witness_StepRunsDecodedCommand :
    ((small true 1 5).withRequest (req 0x40 [])).inputs = .request (req 0x40 []) :: [] ∧
    decode (req 0x40 []).cmd = .command .jump := by decide

theorem witness_EveryCommandCompletes :
    ({ small true 1 5 with inputs := [.request (req 0x7B []), .reset] }).inputs = .request (req 0x7B []) :: [.reset] := by
  decide

theorem witness_NothingHappensWithoutRequest : (small true 3 7).inputs = [] := by decide

theorem witness_ResetEventGivesResetState :
    ({ small true 3 7 with inputs := [.reset] }).inputs = .reset :: [] ∧
    ({ small true 3 7 with inputs := [.resetInFlight (req 0x10 []), .reset] }).inputs =
      .resetInFlight (req 0x10 []) :: [.reset] := by decide

/-- ARG at both ends of its reserved range. -/
theorem witness_NopDoesNothing : (0x1#4 ≠ 0) ∧ (0xF#4 ≠ 0) := by decide

/-- ARG as above, an unseeded state that meets the invariant (the one a NEXT on a reset block leaves), and a STATUS
request. -/
theorem witness_StatusReportsHwaccSeededVar : (0x1#4 ≠ 0) ∧ (0xF#4 ≠ 0) ∧
    Inv { State.reset with response := some ⟨.errUnseeded, 0⟩ } ∧
    ({ State.reset with response := some ⟨.errUnseeded, 0⟩ }).seeded = false ∧ (req 0x90 []).commandIs .status = true :=
  ⟨by decide, by decide, ⟨fun _ => rfl, fun h => (by cases h), rfl, fun r h _ => (by cases h; rfl)⟩, rfl, by decide⟩

/-- ARG as above, then a ZEROIZE, requests without a SEED and a data command. -/
theorem witness_ZeroizeClearsEverything : (0x1#4 ≠ 0) ∧ (0xF#4 ≠ 0) ∧ (req 0x80 []).commandIs .zeroize = true ∧
    (∀ r ∈ [req 0x90 [], req 0x14 [], req 0x20 []], r.isSeed = false) ∧
    (req 0x7F []).commandIs (.readRk 15) = true ∧ Instr.needsSeed (.readRk 15) = true := by decide

theorem witness_SeedLoadsKeyCounterVariant :
    (0x4#4).extractLsb' 2 2 ≠ 0#2 ∧ (0xF#4).extractLsb' 2 2 ≠ 0#2 ∧
    ((small false 0 0).accept (req 0x13 (counting 48)) []).inFlight = some (req 0x13 (counting 48)) ∧
    (0#2).getLsbD 0 = false ∧ (0#2).getLsbD 1 = false ∧ (3#2).getLsbD 0 = true ∧ (3#2).getLsbD 1 = true := by decide

theorem witness_NextEncryptsThenAdvances :
    (0x1#4 ≠ 0) ∧ (small true 1 5).seeded = true ∧ (small false 1 5).seeded = false := by decide

theorem witness_CounterReadsStreamPosition :
    (0x1#4 ≠ 0) ∧ (small true 1 5).seeded = true ∧ cwOf (small true 2 5).var = 64 ∧ (small false 1 5).seeded = false := by
  decide

theorem witness_JumpAdvancesBy2To64 :
    (0x1#4 ≠ 0) ∧ ((small true 3 5).seeded = true ∧ cwOf (small true 3 5).var = 128) ∧
    (small false 3 5).seeded = false ∧ ((small true 2 5).seeded = true ∧ cwOf (small true 2 5).var = 64) ∧
    (req 0x40 []).commandIs .jump = true := by decide

theorem witness_LongJumpAdvancesBy2To96 :
    (0x1#4 ≠ 0) ∧ ((small true 1 5).seeded = true ∧ cwOf (small true 1 5).var = 128) ∧
    (small false 1 5).seeded = false ∧ ((small true 0 5).seeded = true ∧ cwOf (small true 0 5).var = 64) ∧
    (req 0x50 []).commandIs .longJump = true := by decide

theorem witness_EncryptEncryptsGivenBlock :
    (0xF#4 ≠ 0) ∧ ((small true 0 5).accept (req 0x60 (counting 48)) []).inFlight = some (req 0x60 (counting 48)) ∧
    ((small true 0 5).accept (req 0x60 (counting 48)) []).seeded = true ∧ (small false 0 5).seeded = false ∧
    (req 0x60 (leWordBytes 5)).commandIs .encrypt = true ∧ (req 0x20 []).commandIs .next = true ∧
    (req 0x60 (leWordBytes 5)).din.toList.take 16 = leWordBytes (small true 2 5).ctr := by decide

/-- The last valid and the first invalid index of each key size. -/
theorem witness_ReadRkReturnsRoundKey :
    (small true 0 5).seeded = true ∧ ((10#4).toNat < 15 ∧ (10#4).toNat ≤ nrOf 0) ∧ ((14#4).toNat < 15 ∧ (14#4).toNat ≤ nrOf 2) ∧
    nrOf 0 < (11#4).toNat ∧ nrOf 2 < (15#4).toNat ∧ (small false 0 5).seeded = false ∧
    decode (req 0x12 (counting 48)).cmd = .command (.seed (0#2 ++ 2#2)) ∧ (2#2).getLsbD 1 = true ∧
    (req 0x70 []).commandIs (.readRk 0) = true ∧ (req 0x71 []).commandIs (.readRk 1) = true := by decide

theorem witness_UnseededDataCommandsFail :
    (small false 0 0).seeded = false ∧
    ∃ t, exec .nop (small false 0 0) = .next t ∧ t.response = some ⟨.ok, 0⟩ := ⟨rfl, _, rfl, rfl⟩

theorem witness_JumpsFailOnC64 : (small true 2 5).seeded = true ∧ (small true 2 5).var.getLsbD 0 = false := by decide

theorem witness_ReadRkRangeIsChecked :
    (small true 1 5).seeded = true ∧ (if (small true 1 5).var.getLsbD 1 then 14 else 10) < (11#4).toNat ∧
    (10#4).toNat ≤ (if (small true 1 5).var.getLsbD 1 then 14 else 10) ∧
    (small true 3 5).seeded = true ∧ (if (small true 3 5).var.getLsbD 1 then 14 else 10) < (15#4).toNat ∧
    (14#4).toNat ≤ (if (small true 3 5).var.getLsbD 1 then 14 else 10) := by decide

theorem witness_ErrorsChangeNothing :
    ∃ t, step ((small true 0 5).withRequest (req 0x40 [])) = .next t ∧ t.response = some ⟨.errVariant, 0⟩ ∧
      Status.errVariant ≠ .ok := ⟨_, rfl, rfl, by decide⟩

/-- One pair of errors each: a jump on a C64 variant, an index out of range. -/
theorem witness_FirstErrorInOrderIsReported :
    statusFor (small true 0 0) 0x40 = .errVariant ∧ statusFor (small true 0 0) 0x7B = .errRange ∧
    statusFor (small false 0 0) 0x40 = .errUnseeded ∧ statusFor (small false 0 0) 0x41 = .errIllegal := by decide

theorem witness_RegistersChangeOnlyByTheirWriters :
    (∃ t, step ((small true 1 5).withRequest (req 0x80 [])) = .next t ∧ t.seeded ≠ (small true 1 5).seeded ∧
      t.rk ≠ (small true 1 5).rk) ∧
    (∃ t, step ((small true 1 5).withRequest (req 0x40 [])) = .next t ∧ t.ctr ≠ (small true 1 5).ctr) :=
  ⟨⟨_, rfl, by decide, by decide⟩, _, rfl, by decide⟩

theorem witness_NonceChangesOnlyBySeedZeroizeReset :
    cwOf (small true 0 0x00000000000000010000000000000002).var = 64 ∧
    ∃ t, step ((small true 0 0x00000000000000010000000000000002).withRequest (req 0x80 [])) = .next t ∧
      t.ctr.extractLsb' 64 64 ≠ (small true 0 0x00000000000000010000000000000002).ctr.extractLsb' 64 64 :=
  ⟨by decide, _, rfl, by decide⟩

theorem witness_SideEffectsAndIdempotence :
    (∃ t, exec .counter (small true 1 5) = .next t) ∧ Instr.isReadOnly .counter = true ∧
    (∃ t, exec .jump (small true 1 5) = .next t) ∧
    (req 0x10 []).commandIs .next = false ∧ (req 0x10 []).commandIs .jump = false ∧
    (req 0x10 []).commandIs .longJump = false ∧ (small true 1 5).seeded = true ∧ (req 0x20 []).commandIs .next = true ∧
    (cwOf (small true 1 5).var = 128 ∧ (req 0x50 []).commandIs .longJump = true) :=
  ⟨⟨_, rfl⟩, rfl, ⟨_, rfl⟩, by decide⟩

/-- Two ENCRYPT requests that differ from DIN[16] on, in states that differ on the port. -/
theorem witness_ResultsDependOnlyOnRegistersAndUsedDin :
    (small true 1 5).tuple = ({ small true 1 5 with inputs := [.reset] }).tuple ∧
    decode (req 0x60 (counting 16)).cmd = .command .encrypt ∧
    decode (req 0x60 (counting 17)).cmd = .command .encrypt ∧
    (∀ j : Fin 48, j.val < Instr.dinUsed .encrypt → (req 0x60 (counting 16)).din[j.val] = (req 0x60 (counting 17)).din[j.val]) ∧
    (req 0x60 (counting 16)).din[16] ≠ (req 0x60 (counting 17)).din[16] := by decide

theorem witness_StreamIsEncryptionOfSuccessiveCounters :
    decode (req 0x13 (counting 48)).cmd = .command (.seed (0#2 ++ 3#2)) ∧
    (∀ r ∈ [req 0x20 [], req 0x30 [], req 0x41 [], req 0x20 []], r.isQuiet = true) ∧
    [req 0x20 [], req 0x30 [], req 0x41 [], req 0x20 []].countP (Request.commandIs · .next) = 2 ∧
    (req 0x20 []).commandIs .next = true := by decide

theorem witness_SnapshotIsMadeFromKeptKey :
    (1#2).getLsbD 0 = true ∧ (counting 16).length = keyBytesOf 1 ∧ (hexString 16 5).length = 16 ∧
    (∀ r ∈ [req 0x20 [], req 0x40 []], r.keepsKeys = true) ∧
    (req 0x40 []).commandIs .jump = true ∧ (req 0x50 []).commandIs .longJump = true ∧
    ∃ resp, (((State.reset.perform (seedRequest 1 (counting 16 ++ hexString 16 5))).performAll []).perform
      (req 0x40 [])).response = some resp := ⟨by decide, by decide, by decide, by decide, by decide, by decide, _, rfl⟩

/-- The ends of the ranges, a seeded C128 and a seeded C64 state, and the three requests. -/
theorem witness_CounterPeriodAndDisjointRanges :
    0 < 2 ^ 64 ∧ 2 ^ 64 - 1 < 2 ^ 64 ∧ 0 < 2 ^ 96 ∧ 2 ^ 96 - 1 < 2 ^ 96 ∧ 2 ^ 128 ∣ 0 ∧ ¬ 2 ^ 64 ∣ 1 ∧
    ((small true 1 5).seeded = true ∧ cwOf (small true 1 5).var = 128) ∧
    ((small true 2 5).seeded = true ∧ cwOf (small true 2 5).var = 64) ∧
    (req 0x20 []).commandIs .next = true ∧ (req 0x40 []).commandIs .jump = true ∧
    (req 0x50 []).commandIs .longJump = true := by
  refine ⟨by norm_num, by norm_num, by norm_num, by norm_num, by norm_num, by norm_num, by decide⟩

/-- A jump on a C128 variant and the last round key of an A256 variant. -/
theorem witness_ProgramsThatSeedFirstAreSafe :
    decode (req 0x13 (counting 48)).cmd = .command (.seed (0#2 ++ 3#2)) ∧
    ∀ r ∈ [req 0x40 [], req 0x7E []], r.keepsKeys = true ∧ ∃ i, decode r.cmd = .command i ∧
      (i.isJump = true → (3#2).getLsbD 0 = true) ∧
      (∀ idx, i = .readRk idx → idx.toNat ≤ if (3#2).getLsbD 1 then 14 else 10) := by
  refine ⟨by decide, fun r hr => ?_⟩
  simp only [List.mem_cons, List.not_mem_nil, or_false] at hr
  rcases hr with rfl | rfl
  · exact ⟨by decide, .jump, by decide, by decide, fun idx h => by cases h⟩
  · exact ⟨by decide, .readRk 14, by decide, by decide, fun idx h => by cases h; decide⟩

/-- A seeded state with a request on its port, and the step it takes. -/
theorem witness_StepKeepsInvariant :
    Inv ((keyed 1 5).withRequest (req 0x40 [])) ∧ ∃ t, step ((keyed 1 5).withRequest (req 0x40 [])) = .next t := by
  refine ⟨⟨fun h => by simp [keyed] at h, fun _ => ⟨counting 16, rfl, fun i h => ?_, fun i h => ?_⟩, rfl,
    fun r h => by simp [keyed] at h⟩, _, rfl⟩
  · have h' : i.val ≤ nrOf 1#2 := h
    simp [keyed, seedRoundKeys, h', keyBytesOf]
  · have h' : ¬ i.val ≤ nrOf 1#2 := Nat.not_le.2 h
    simp [keyed, seedRoundKeys, h']

theorem witness_FieldInverseIsUnique :
    (0x01#8 ≠ 0) ∧ gfMul 0x01 0x01 = 1 ∧ (0xFF#8 ≠ 0) ∧ gfMul 0x53 0xCA = 1 := by decide +kernel

/-- A state whose every row is constant: row r holds r. -/
theorem witness_SubBytesAndShiftRowsByCell : ∀ r c : Fin 4,
    (blockOf 0x00010203000102030001020300010203)[r.val + 4 * c.val] = (blockOf 0x00010203000102030001020300010203)[r.val] := by
  decide

/-- A column of four equal bytes. -/
theorem witness_MixColumnsIsTheMatrix :
    ∀ r c : Fin 4, (Vector.replicate 16 0xC6 : Block)[r.val + 4 * c.val] = (Vector.replicate 16 0xC6 : Block)[4 * c.val] := by
  decide

/-- Two key sequences that differ above Nr = 10 only. -/
theorem witness_CipherRunsItsRoundsInOrder :
    (∀ i, i ≤ 10 → (fun i => le128 (BitVec.ofNat 128 i)) i =
      (fun i => if i ≤ 10 then le128 (BitVec.ofNat 128 i) else le128 0) i) := fun i h => by simp [h]

/-- The last key word and both ends of the recurrence, for each key size. -/
theorem witness_KeyScheduleRecurrence :
    (counting 16).length = 4 * 4 ∧ (counting 32).length = 4 * 8 ∧ 3 < 4 ∧ 7 < 8 ∧
    (4 ≤ 43 ∧ 43 < 4 * (4 + 6 + 1)) ∧ (8 ≤ 59 ∧ 59 < 4 * (8 + 6 + 1)) ∧
    12 % 4 = 0 ∧ (8 > 6 ∧ 12 % 8 = 4) ∧ ¬ (9 % 8 = 0 ∨ 9 % 8 = 4) := by decide

theorem witness_KeyScheduleWordFunctions : 2 ≤ 2 ∧ 2 ≤ 10 ∧ 1 ≤ 1 := by decide

theorem witness_ReadRkShowsTheSeededSchedule :
    decode (req 0x12 (counting 48)).cmd = .command (.seed (0#2 ++ 2#2)) ∧
    (req 0x7E []).commandIs (.readRk 14) = true ∧ (14#4).toNat ≤ nrOf 2 ∧
    decode (req 0x11 (counting 32)).cmd = .command (.seed (0#2 ++ 1#2)) ∧
    (req 0x7A []).commandIs (.readRk 10) = true ∧ (10#4).toNat ≤ nrOf 1 := by decide

theorem witness_SeedFieldsLieInDin :
    (2#2).getLsbD 0 = false ∧ (3#2).getLsbD 0 = true ∧
    (∃ j : Fin 48, j.val = 15 ∧ j.val < 16) ∧ (∃ j : Fin 48, j.val = 31 ∧ j.val < 32) := by decide

theorem witness_BlocksAreIndependent :
    (∃ p', (Platform.reset 2).command 0 (req 0x90 []) = .next p') ∧ (1 : Nat) ≠ 0 ∧
    (Platform.reset 2).blocks[1]? = some State.reset := ⟨⟨_, rfl⟩, by decide, rfl⟩

theorem witness_AbsentBlockIsRefused : (Platform.reset 2).blocks.length ≤ 2 ∧ (Platform.reset 0).blocks.length ≤ 0 := by
  decide

theorem witness_LittleEndianRoundTrip : (counting 16).length = 16 ∧ (counting 8).length = 8 := by decide

/-- Operands of each line at the ends of their ranges. -/
theorem witness_AssemblerEncodesLines :
    (counting 32).length = (if (1#2).getLsbD 1 then 48 else 32) ∧ (counting 48).length = (if (2#2).getLsbD 1 then 48 else 32) ∧
    (counting 16).length = 16 ∧ 0 ≤ 15 ∧ 15 ≤ 15 ∧ (counting 0).length ≤ 48 ∧ (counting 48).length ≤ 48 := by decide

/-- A C64 and a C128 generator, seeds of both lengths, a kept key, and the last byte of a `fill_bytes`. -/
theorem witness_ApiCallsReadTheirValues :
    ((small true 0 5).seeded = true ∧ cwOf (small true 0 5).var = 64) ∧
    ((small true 1 5).seeded = true ∧ cwOf (small true 1 5).var = 128) ∧
    (counting 32).length = seedBytesOf 1 ∧ (counting 48).length = seedBytesOf 2 ∧
    ApiCall.jump ∈ [ApiCall.jump, .longJump] ∧ ApiCall.longJump ∈ [ApiCall.jump, .longJump] ∧
    (counting 16).length = keyBytesOf (small true 1 5).var ∧ 16 < 17 := by decide

/-- A SEED request; a state at place 2 of its stream with a NEXT, with another request and with nothing on the port. -/
theorem witness_StepKeepsTheStream :
    (∃ t, (State.reset.withRequest (req 0x11 (counting 16))).inputs = .request (req 0x11 (counting 16)) :: [] ∧
      decode (req 0x11 (counting 16)).cmd = .command (.seed (0#2 ++ 1#2)) ∧
      step (State.reset.withRequest (req 0x11 (counting 16))) = .next t) ∧
    OnStream 1 (counting 16) 5 2 (keyed 1 7) ∧ (keyed 1 7).inputs = [] ∧
    (∃ t, OnStream 1 (counting 16) 5 2 ((keyed 1 7).withRequest (req 0x20 [])) ∧ (req 0x20 []).isQuiet = true ∧
      (req 0x20 []).commandIs .next = true ∧ step ((keyed 1 7).withRequest (req 0x20 [])) = .next t) ∧
    (∃ t, OnStream 1 (counting 16) 5 2 ((keyed 1 7).withRequest (req 0x41 [])) ∧ (req 0x41 []).isQuiet = true ∧
      step ((keyed 1 7).withRequest (req 0x41 [])) = .next t) := by
  have h : OnStream 1 (counting 16) 5 2 (keyed 1 7) := ⟨rfl, rfl, rfl, by decide⟩
  have on (r : Request) : OnStream 1 (counting 16) 5 2 ((keyed 1 7).withRequest r) := ⟨h.1, h.2, h.3, h.4⟩
  exact ⟨⟨_, rfl, by decide, step_withRequest ..⟩, h, rfl, ⟨_, on _, by decide, by decide, step_withRequest ..⟩,
    ⟨_, on _, by decide, step_withRequest ..⟩⟩

end Sys2Proof.Machine.Tests
end

section
/-!
PROOF. The byte order of R9 and the parameters of a variant (R5, R113): the conversions between numbers and byte
strings undo each other.
-/
namespace Sys2Proof.Machine

/-! ### Byte strings as sums, and their bytes (R9) -/

theorem fromLENat_eq_sum (bs : List Byte) :
    fromLENat bs = ∑ i : Fin bs.length, bs[i.val].toNat * 2 ^ (8 * i.val) := by
  induction bs with
  | nil => rfl
  | cons b bs ih =>
    have shift : ∀ i : Fin bs.length,
        bs[i.val].toNat * 2 ^ (8 * (i.val + 1)) = 256 * (bs[i.val].toNat * 2 ^ (8 * i.val)) := fun i => by ring
    calc fromLENat (b :: bs)
        = b.toNat + 256 * ∑ i : Fin bs.length, bs[i.val].toNat * 2 ^ (8 * i.val) := by rw [fromLENat_cons, ih]
      _ = b.toNat + ∑ i : Fin bs.length, bs[i.val].toNat * 2 ^ (8 * (i.val + 1)) := by
          simp only [shift, Finset.mul_sum]
      _ = ∑ i : Fin (bs.length + 1), (b :: bs)[i.val].toNat * 2 ^ (8 * i.val) := by simp [Fin.sum_univ_succ]

theorem fromLENat_byte (bs : List Byte) (i : Nat) (h : i < bs.length) :
    fromLENat bs / 256 ^ i % 256 = bs[i].toNat := by
  induction bs generalizing i with
  | nil => exact absurd h (Nat.not_lt_zero i)
  | cons b bs ih =>
    have hb : b.toNat < 256 := b.isLt
    cases i with
    | zero => simp only [fromLENat_cons, List.getElem_cons_zero]; omega
    | succ i =>
      have drop_low : (b.toNat + 256 * fromLENat bs) / 256 = fromLENat bs := by omega
      rw [fromLENat_cons, Nat.pow_succ', ← Nat.div_div_eq_div_mul, drop_low, List.getElem_cons_succ]
      exact ih i (Nat.lt_of_succ_lt_succ h)

/-- The first m bytes of a word of any width are its value modulo `2^(8m)`. -/
theorem fromLENat_leBytes {n : Nat} (v : BitVec n) (m : Nat) :
    fromLENat ((List.range m).map (leByte v)) = v.toNat % 256 ^ m := by
  induction m with
  | zero => simp [Nat.mod_one]
  | succ m ih =>
    rw [List.range_succ, List.map_append, fromLENat_append, ih, Nat.mod_pow_succ]
    simp [leByte_toNat]

theorem fromLENat_leBytes_full (m : Nat) (v : BitVec (8 * m)) :
    fromLENat ((List.range m).map (leByte v)) = v.toNat := by
  rw [fromLENat_leBytes, Nat.mod_eq_of_lt]
  simpa only [Nat.pow_mul] using v.isLt

/-! ### The port's fields and blocks (R9, R41) -/

theorem fromLE128_toNat {bs : List Byte} (h : bs.length = 16) : (fromLE128 bs).toNat = fromLENat bs := by
  have hlt := fromLENat_lt bs
  rw [h] at hlt
  exact Nat.mod_eq_of_lt hlt

theorem fromLE64_toNat {bs : List Byte} (h : bs.length = 8) : (fromLE64 bs).toNat = fromLENat bs := by
  have hlt := fromLENat_lt bs
  rw [h] at hlt
  exact Nat.mod_eq_of_lt hlt

theorem fromLEBlock_toNat (b : Block) : (fromLEBlock b).toNat = fromLENat b.toList :=
  fromLE128_toNat b.length_toList

theorem fromLEBlock_toNat_eq_sum (b : Block) :
    (fromLEBlock b).toNat = ∑ i : Fin 16, b[i.val].toNat * 2 ^ (8 * i.val) := by
  rw [fromLEBlock_toNat, fromLENat_eq_sum]
  exact Fintype.sum_equiv (finCongr b.length_toList) _ _ fun i => by simp

theorem le128_toList (v : Word) : (le128 v).toList = (List.range 16).map (leByte v) :=
  List.ext_getElem (by simp) fun i _ _ => by simp

@[simp] theorem fromLEBlock_le128 (v : Word) : fromLEBlock (le128 v) = v := by
  apply BitVec.eq_of_toNat_eq
  rw [fromLEBlock_toNat, le128_toList]
  exact fromLENat_leBytes_full 16 v

@[simp] theorem le128_fromLEBlock (b : Block) : le128 (fromLEBlock b) = b := by
  refine Vector.ext fun i hi => BitVec.eq_of_toNat_eq ?_
  rw [le128_getElem, leByte_toNat, fromLEBlock_toNat, fromLENat_byte b.toList i (by simpa using hi),
    Vector.getElem_toList]

theorem fromLE64_leBytes (v : Half) : fromLE64 ((List.range 8).map (leByte v)) = v := by
  apply BitVec.eq_of_toNat_eq
  rw [fromLE64_toNat (by simp)]
  exact fromLENat_leBytes_full 8 v

/-! ### The statements -/

/-- Settles O48: the sum by induction on the byte string, `fromLE(LE_n(v)) = v` by induction on the number of bytes;
the port's conversions are these at 16 and 8 bytes. -/
theorem littleEndianRoundTrip : Obligations.LittleEndianRoundTrip :=
  ⟨fun _ _ _ => rfl, fromLENat_eq_sum, fromLENat_leBytes_full, fun v i => le128_getElem v i i.isLt,
    fromLEBlock_toNat_eq_sum, fun _ => fromLE128_toNat, fun _ => fromLE64_toNat,
    fun r i => le128_getElem r.dout i i.isLt, fromLEBlock_le128, le128_fromLEBlock, fromLE64_leBytes⟩

/-- Settles O11: the key-size bit VAR[1] fixes Nk, Nr and the key bytes, the width bit VAR[0] fixes CW (R22). -/
theorem variantParameters : Obligations.VariantParameters := by
  intro var
  refine ⟨?nk, ?nr, ?cw, ?keyBytes, rfl⟩
  case nk => unfold nkOf; cases var.getLsbD 1 <;> rfl
  case nr => unfold nrOf; cases var.getLsbD 1 <;> rfl
  case cw => unfold cwOf; cases var.getLsbD 0 <;> rfl
  case keyBytes => unfold keyBytesOf nkOf; cases var.getLsbD 1 <;> rfl

end Sys2Proof.Machine
end

section
/-!
PROOF. What a step can do to the block (R20, R25, R126, R212), the invariant of a legal block state (R21, R23, R49,
R205), and the independence of the blocks of a platform (R30, R50, R213).
-/
namespace Sys2Proof.Machine

variable {s t : State} {r : Request} {rest : List PortInput} {i : Instr}

/-! ### What a step can do -/

/-- RESET is first on the port, outside a command or with one in flight (R220). -/
def ResetFirst (s : State) : Prop :=
  ∃ (r : Request) (rest : List PortInput), s.inputs = .reset :: rest ∨ s.inputs = .resetInFlight r :: rest

theorem takeReset_eq (rest : List PortInput) (s : State) :
    takeReset rest s = .next { State.reset with inputs := rest } := rfl

theorem dropInFlight_eq (r : Request) (rest : List PortInput) (s : State) :
    dropInFlight r rest s = .next { State.reset with inputs := rest } := rfl

/-- Everything a step can do: stay idle, take a RESET, run a command, or answer an ILLEGAL word. -/
theorem step_inversion (h : step s = .next t) :
    (s.inputs = [] ∧ t = s) ∨
    (ResetFirst s ∧ t = { State.reset with inputs := s.inputs.tail }) ∨
    (∃ r rest i, s.inputs = .request r :: rest ∧ decode r.cmd = .command i ∧
      exec i (s.accept r rest) = .next t) ∨
    (∃ r rest, s.inputs = .request r :: rest ∧ t = (s.accept r rest).respond .errIllegal 0) := by
  rcases hin : s.inputs with _ | ⟨⟨r⟩ | _ | ⟨r⟩, rest⟩
  case nil =>
    rw [step_idle hin] at h; cases h
    exact .inl ⟨rfl, rfl⟩
  case cons.request =>
    cases hd : decode r.cmd with
    | command i =>
      rw [step_command hin hd] at h
      exact .inr (.inr (.inl ⟨r, rest, i, rfl, hd, h⟩))
    | illegal why =>
      rw [step_illegal hin hd] at h; cases h
      exact .inr (.inr (.inr ⟨r, rest, rfl, rfl⟩))
  case cons.reset =>
    rw [step_reset hin, takeReset_eq] at h; cases h
    exact .inr (.inl ⟨⟨⟨0, zeroDin⟩, rest, .inl hin⟩, rfl⟩)
  case cons.resetInFlight =>
    rw [step_resetInFlight hin, dropInFlight_eq] at h; cases h
    exact .inr (.inl ⟨⟨r, rest, .inr hin⟩, rfl⟩)

/-- A step that changes a register takes a RESET or runs a command. -/
theorem step_tuple_cases (h : step s = .next t) :
    t.tuple = s.tuple ∨ ResetFirst s ∨
    ∃ r rest i, s.inputs = .request r :: rest ∧ decode r.cmd = .command i ∧
      exec i (s.accept r rest) = .next t := by
  obtain ⟨-, rfl⟩ | ⟨hreset, -⟩ | hcommand | ⟨r, rest, -, rfl⟩ := step_inversion h
  · exact .inl rfl
  · exact .inr (.inl hreset)
  · exact .inr (.inr hcommand)
  · exact .inl rfl

/-! ### The writers of the registers (R20, R25) -/

/-- A command other than SEED and ZEROIZE keeps SEEDED, VAR and RK; it keeps CTR too, unless it is a NEXT, or a jump
in a C128 variant. -/
theorem exec_writers (h : exec i s = .next t) :
    (∃ arg, i = .seed arg) ∨ i = .zeroize ∨
    (t.seeded = s.seeded ∧ t.var = s.var ∧ t.rk = s.rk ∧
      (t.ctr = s.ctr ∨ (i = .next ∧ t.ctr = ctrInc s.ctr (cwOf s.var)) ∨
        (cwOf s.var ≠ 64 ∧ (i = .jump ∨ i = .longJump)))) := by
  obtain ⟨arg, hi, -⟩ | ⟨hi, -⟩ | ⟨-, hi, rfl⟩ | ⟨-, hw, hi, rfl⟩ | ⟨-, hw, hi, rfl⟩ | ⟨-, -, -, st, d, rfl, -⟩ :=
    exec_inversion h
  · exact .inl ⟨arg, hi⟩
  · exact .inr (.inl hi)
  · exact .inr (.inr ⟨rfl, rfl, rfl, .inr (.inl ⟨hi, rfl⟩)⟩)
  · exact .inr (.inr ⟨rfl, rfl, rfl, .inr (.inr ⟨hw, .inl hi⟩)⟩)
  · exact .inr (.inr ⟨rfl, rfl, rfl, .inr (.inr ⟨hw, .inr hi⟩)⟩)
  · exact .inr (.inr ⟨rfl, rfl, rfl, .inl rfl⟩)

/-- In a C64 variant only SEED and ZEROIZE move the high half of CTR: a NEXT counts in the low half, a jump fails. -/
theorem exec_nonce (hcw : cwOf s.var = 64) (h : exec i s = .next t) :
    (∃ arg, i = .seed arg) ∨ i = .zeroize ∨ t.ctr.extractLsb' 64 64 = s.ctr.extractLsb' 64 64 := by
  obtain hseed | hzero | ⟨-, -, -, hctr | ⟨-, hctr⟩ | ⟨hwide, -⟩⟩ := exec_writers h
  · exact .inl hseed
  · exact .inr (.inl hzero)
  · exact .inr (.inr (by rw [hctr]))
  · exact .inr (.inr (by rw [hctr, hcw, ctrInc_64_high]))
  · exact absurd hcw hwide

theorem Request.isSeed_of_decode {arg : BitVec 4} (hd : decode r.cmd = .command (.seed arg)) : r.isSeed = true := by
  simp [Request.isSeed, hd]

theorem Request.commandIs_of_decode (hd : decode r.cmd = .command i) : r.commandIs i = true := by
  simp [Request.commandIs, hd]

/-- A SEED or ZEROIZE request is one that writes the round keys. -/
theorem Request.keepsKeys_eq_false_iff :
    r.keepsKeys = false ↔ r.isSeed = true ∨ r.commandIs .zeroize = true := by
  simp only [Request.keepsKeys, Bool.not_eq_false', Bool.or_eq_true]

/-- The requests that are not quiet are the seeds, the jumps and ZEROIZE. -/
theorem Request.isQuiet_eq_false_iff :
    r.isQuiet = false ↔ r.isSeed = true ∨ r.commandIs .jump = true ∨ r.commandIs .longJump = true ∨
      r.commandIs .zeroize = true := by
  simp only [Request.isQuiet, Bool.not_eq_false', Bool.or_eq_true, or_assoc]

/-- Settles O28: by the inversion of a step; the commands that change a register are those `exec_writers` names. -/
theorem registersChangeOnlyByTheirWriters : Obligations.RegistersChangeOnlyByTheirWriters := by
  intro s t h
  obtain hsame | hreset | ⟨r, rest, i, hin, hd, hexec⟩ := step_tuple_cases h
  case inl =>
    obtain ⟨hseeded, hvar, hrk, hctr⟩ := State.tuple_eq_iff.1 hsame
    exact ⟨fun hne => by simp [hseeded, hvar, hrk] at hne, fun hne => absurd hctr hne⟩
  case inr.inl => exact ⟨fun _ => .inr hreset, fun _ => .inr hreset⟩
  case inr.inr =>
    have his := Request.commandIs_of_decode hd
    obtain ⟨arg, rfl⟩ | rfl | ⟨hseeded, hvar, hrk, hctr⟩ := exec_writers hexec
    · have hseed := Request.isSeed_of_decode hd
      exact ⟨fun _ => .inl ⟨r, rest, hin, Request.keepsKeys_eq_false_iff.2 (.inl hseed)⟩,
        fun _ => .inl ⟨r, rest, hin, .inl (Request.isQuiet_eq_false_iff.2 (.inl hseed))⟩⟩
    · exact ⟨fun _ => .inl ⟨r, rest, hin, Request.keepsKeys_eq_false_iff.2 (.inr his)⟩,
        fun _ => .inl ⟨r, rest, hin, .inl (Request.isQuiet_eq_false_iff.2 (.inr (.inr (.inr his))))⟩⟩
    · refine ⟨fun hne => by simp [hseeded, hvar, hrk] at hne, fun hne => .inl ⟨r, rest, hin, ?_⟩⟩
      obtain hctr | ⟨rfl, -⟩ | ⟨-, rfl | rfl⟩ := hctr
      · exact absurd hctr hne
      · exact .inr his
      · exact .inl (Request.isQuiet_eq_false_iff.2 (.inr (.inl his)))
      · exact .inl (Request.isQuiet_eq_false_iff.2 (.inr (.inr (.inl his))))

/-- Settles O29: an idle step and an ILLEGAL word keep CTR, and a C64 command other than SEED and ZEROIZE keeps its
high half. -/
theorem nonceChangesOnlyBySeedZeroizeReset : Obligations.NonceChangesOnlyBySeedZeroizeReset := by
  intro s t hcw h hne
  obtain hsame | hreset | ⟨r, rest, i, hin, hd, hexec⟩ := step_tuple_cases h
  · obtain ⟨-, -, -, hctr⟩ := State.tuple_eq_iff.1 hsame
    exact absurd (by rw [hctr]) hne
  · exact .inr hreset
  · refine .inl ⟨r, rest, hin, ?_⟩
    obtain ⟨arg, rfl⟩ | rfl | hnonce := exec_nonce (s := s.accept r rest) hcw hexec
    · exact .inl (Request.isSeed_of_decode hd)
    · exact .inr (Request.commandIs_of_decode hd)
    · exact absurd hnonce hne

/-! ### The invariant of a legal block state (R21, R23, R49, R205) -/

theorem seedKey_length (var : BitVec 2) (d : Din) : (seedKey var d).length = keyBytesOf var := by
  have fits : keyBytesOf var ≤ 48 := by unfold keyBytesOf; split <;> omega
  simpa [seedKey, dinSlice] using fits

/-- The round keys a SEED loads are the key expansion of its key, with zeros above Nr (R141). -/
theorem keyDerived_loadSeed (s : State) (var : BitVec 2) (key : List Byte) (c : Word)
    (hlen : key.length = keyBytesOf var) : KeyDerived (s.loadSeed var (seedRoundKeys var key) c) := by
  refine ⟨key, hlen, fun i hi => ?_, fun i hi => ?_⟩
  · have within : i.val ≤ nrOf var := hi
    simp [seedRoundKeys, within]
  · have above : ¬ i.val ≤ nrOf var := Nat.not_le.2 hi
    simp [seedRoundKeys, above]

/-- The clauses of `Inv` about the registers (R21, R23). -/
structure LegalRegisters (s : State) : Prop where
  unseeded_is_reset : s.seeded = false → s.tuple = State.reset.tuple
  seeded_keys : s.seeded = true → KeyDerived s

theorem Inv.legalRegisters (h : Inv s) : LegalRegisters s := ⟨h.unseeded_is_reset, h.seeded_keys⟩

/-- Taking a request from the port changes no register. -/
theorem LegalRegisters.accept (h : LegalRegisters s) (r : Request) (rest : List PortInput) :
    LegalRegisters (s.accept r rest) := ⟨h.unseeded_is_reset, h.seeded_keys⟩

/-- CTR of a seeded block is free (R24). -/
theorem LegalRegisters.setCtr (h : LegalRegisters s) (hs : s.seeded = true) (c : Word) :
    LegalRegisters (s.setCtr c) :=
  ⟨fun hu => absurd (hs.symm.trans hu) (by decide), h.seeded_keys⟩

theorem legalRegisters_clear (s : State) : LegalRegisters s.clear := ⟨fun _ => rfl, fun h => nomatch h⟩

theorem legalRegisters_loadSeed (s : State) (var : BitVec 2) (d : Din) (c : Word) :
    LegalRegisters (s.loadSeed var (seedRoundKeys var (seedKey var d)) c) :=
  ⟨fun h => (nomatch h), fun _ => keyDerived_loadSeed s var _ c (seedKey_length var d)⟩

/-- A response ends the command, so `Inv` is legal registers and DOUT = 0 beside an error (R52, R205). -/
theorem LegalRegisters.inv_respond (h : LegalRegisters s) {st : Status} {d : Word} (hd : st ≠ .ok → d = 0) :
    Inv (s.respond st d) where
  unseeded_is_reset := h.unseeded_is_reset
  seeded_keys := h.seeded_keys
  nothing_in_flight := rfl
  error_dout := fun r hr herr => by cases hr; exact hd herr

theorem inv_reset_with_inputs (rest : List PortInput) : Inv { State.reset with inputs := rest } where
  unseeded_is_reset := fun _ => rfl
  seeded_keys := fun h => nomatch h
  nothing_in_flight := rfl
  error_dout := fun _ hr => nomatch hr

/-- A command that starts from legal registers ends in a state that meets the invariant. -/
theorem exec_inv (hs : LegalRegisters s) (h : exec i s = .next t) : Inv t := by
  obtain ⟨arg, -, rfl⟩ | ⟨-, rfl⟩ | ⟨hseeded, -, rfl⟩ | ⟨hseeded, -, -, rfl⟩ | ⟨hseeded, -, -, rfl⟩ |
    ⟨-, -, -, st, d, rfl, hd⟩ := exec_inversion h
  · exact (legalRegisters_loadSeed ..).inv_respond (by simp)
  · exact (legalRegisters_clear s).inv_respond (by simp)
  · exact (hs.setCtr hseeded _).inv_respond (by simp)
  · exact (hs.setCtr hseeded _).inv_respond (by simp)
  · exact (hs.setCtr hseeded _).inv_respond (by simp)
  · exact hs.inv_respond hd

/-- Settles O37: by the inversion of a step; a command keeps the registers legal and ends with a response. -/
theorem stepKeepsInvariant : Obligations.StepKeepsInvariant := by
  intro s t hs h
  obtain ⟨-, rfl⟩ | ⟨-, rfl⟩ | ⟨r, rest, i, -, -, hexec⟩ | ⟨r, rest, -, rfl⟩ := step_inversion h
  · exact hs
  · exact inv_reset_with_inputs _
  · exact exec_inv (hs.legalRegisters.accept r rest) hexec
  · exact (hs.legalRegisters.accept r rest).inv_respond fun _ => rfl

/-! ### Independent blocks (R30, R50, R213) -/

/-- A command to a block that is present replaces that block by its own state after the request. -/
theorem Platform.command_present {p : Platform} {k : Nat} (hk : p.blocks[k]? = some s) (r : Request) :
    p.command k r = .next ⟨p.blocks.set k (s.perform r)⟩ := by
  simp [Platform.command, hk, step_withRequest, Platform.put]

theorem Platform.command_absent {p : Platform} {k : Nat} (hk : p.blocks[k]? = none) (r : Request) :
    p.command k r = .refused .noBlockPresent := by
  simp [Platform.command, hk]

/-- A command to block k leaves block j as it was. -/
theorem Platform.command_other {p p' : Platform} {j k : Nat} (hjk : j ≠ k) (h : p.command k r = .next p') :
    p'.blocks[j]? = p.blocks[j]? := by
  cases hk : p.blocks[k]? with
  | none => rw [Platform.command_absent hk] at h; cases h
  | some s =>
    rw [Platform.command_present hk] at h; cases h
    exact List.getElem?_set_ne hjk.symm

theorem andThen_next (o : PlatformResult) : andThen o .next = o := by cases o <;> rfl

theorem Platform.commands_pair (p : Platform) (j k : Nat) (r q : Request) :
    p.commands [(j, r), (k, q)] = andThen (p.command j r) fun p' => p'.command k q := by
  simp [Platform.commands, andThen_next]

/-- A pair of commands to two present blocks serves each block once. -/
theorem Platform.commands_pair_present {p : Platform} {j k : Nat} {a b : State} (hjk : j ≠ k)
    (hj : p.blocks[j]? = some a) (hk : p.blocks[k]? = some b) (r q : Request) :
    p.commands [(j, r), (k, q)] = .next ⟨(p.blocks.set j (a.perform r)).set k (b.perform q)⟩ := by
  have first := Platform.command_present hj r
  have hk' : (p.blocks.set j (a.perform r))[k]? = some b := (Platform.command_other hjk.symm first).trans hk
  rw [Platform.commands_pair, first]
  exact Platform.command_present (p := ⟨_⟩) hk' q

/-- A pair of commands of which one names an absent block is refused, in either order. -/
theorem Platform.commands_pair_absent {p : Platform} {j k : Nat} (hjk : j ≠ k)
    (h : p.blocks[j]? = none ∨ p.blocks[k]? = none) (r q : Request) :
    p.commands [(j, r), (k, q)] = .refused .noBlockPresent := by
  rw [Platform.commands_pair]
  cases hj : p.blocks[j]? with
  | none => rw [Platform.command_absent hj]; rfl
  | some a =>
    have first := Platform.command_present hj r
    have hk : p.blocks[k]? = none := h.resolve_left (by simp [hj])
    rw [first]
    exact Platform.command_absent ((Platform.command_other hjk.symm first).trans hk) q

theorem Platform.commands_pair_comm (p : Platform) {j k : Nat} (hjk : j ≠ k) (r q : Request) :
    p.commands [(j, r), (k, q)] = p.commands [(k, q), (j, r)] := by
  cases hj : p.blocks[j]? with
  | none => rw [p.commands_pair_absent hjk (.inl hj), p.commands_pair_absent hjk.symm (.inr hj)]
  | some a =>
    cases hk : p.blocks[k]? with
    | none => rw [p.commands_pair_absent hjk (.inr hk), p.commands_pair_absent hjk.symm (.inl hk)]
    | some b =>
      rw [Platform.commands_pair_present hjk hj hk, Platform.commands_pair_present hjk.symm hk hj,
        List.set_comm _ _ hjk]

/-- Settles O50: a command writes its own place of the list alone, and writes to two places of a list commute. -/
theorem blocksAreIndependent : Obligations.BlocksAreIndependent := by
  refine ⟨fun p p' k j r h hjk => Platform.command_other hjk h, fun p k r s hk => ?_,
    fun p j k r q hjk => p.commands_pair_comm hjk r q⟩
  obtain ⟨inRange, -⟩ := List.getElem?_eq_some_iff.1 hk
  exact ⟨_, Platform.command_present hk r, List.getElem?_set_self inRange⟩

end Sys2Proof.Machine
end

section
/-!
PROOF. What a command's answer depends on (R28), the host's requests as a left fold (R48), and which commands change
what and which are idempotent (R47).
-/
namespace Sys2Proof.Machine

variable {s s₁ s₂ t : State} {r : Request} {i : Instr} {go₁ go₂ : Result}

/-! ### A command answers by the registers and DIN alone (R28) -/

/-- Two commands end with the same response and with the same registers. -/
def SameAnswer (o₁ o₂ : Result) : Prop :=
  ∃ (u₁ u₂ : State) (st : Status) (d : Word),
    o₁ = .next (u₁.respond st d) ∧ o₂ = .next (u₂.respond st d) ∧ u₁.tuple = u₂.tuple

theorem sameAnswer_respond (h : s₁.tuple = s₂.tuple) (st : Status) (d : Word) :
    SameAnswer (.next (s₁.respond st d)) (.next (s₂.respond st d)) := ⟨s₁, s₂, st, d, rfl, rfl, h⟩

theorem SameAnswer.tuple_response {t₁ t₂ : State} (h : SameAnswer (.next t₁) (.next t₂)) :
    t₁.tuple = t₂.tuple ∧ t₁.response = t₂.response := by
  obtain ⟨u₁, u₂, st, d, h₁, h₂, htuple⟩ := h
  cases h₁; cases h₂
  exact ⟨htuple, rfl⟩

theorem whenSeeded_sameAnswer (h : s₁.tuple = s₂.tuple) (hgo : SameAnswer go₁ go₂) :
    SameAnswer (whenSeeded s₁ go₁) (whenSeeded s₂ go₂) := by
  obtain ⟨hseeded, -, -, -⟩ := State.tuple_eq_iff.1 h
  cases hs : s₂.seeded with
  | false =>
    rw [whenSeeded_unseeded hs, whenSeeded_unseeded (hseeded.trans hs)]
    exact sameAnswer_respond h ..
  | true => rwa [whenSeeded_seeded hs, whenSeeded_seeded (hseeded.trans hs)]

theorem whenWideCounter_sameAnswer (h : s₁.tuple = s₂.tuple) (hgo : SameAnswer go₁ go₂) :
    SameAnswer (whenWideCounter s₁ go₁) (whenWideCounter s₂ go₂) := by
  obtain ⟨-, hvar, -, -⟩ := State.tuple_eq_iff.1 h
  by_cases hw : cwOf s₂.var = 64
  · rw [whenWideCounter_narrow hw, whenWideCounter_narrow (hvar ▸ hw)]
    exact sameAnswer_respond h ..
  · rwa [whenWideCounter_wide hw, whenWideCounter_wide (hvar ▸ hw)]

theorem whenInRange_sameAnswer (idx : BitVec 4) (h : s₁.tuple = s₂.tuple) (hgo : SameAnswer go₁ go₂) :
    SameAnswer (whenInRange idx s₁ go₁) (whenInRange idx s₂ go₂) := by
  obtain ⟨-, hvar, -, -⟩ := State.tuple_eq_iff.1 h
  by_cases hi : nrOf s₂.var < idx.toNat
  · rw [whenInRange_outside hi, whenInRange_outside (hvar ▸ hi)]
    exact sameAnswer_respond h ..
  · have inside := Nat.not_lt.1 hi
    rwa [whenInRange_inside inside, whenInRange_inside (hvar ▸ inside)]

theorem State.roundKey_congr (h : s₁.rk = s₂.rk) : s₁.roundKey = s₂.roundKey := by
  funext i; simp only [State.roundKey, h]

theorem State.encryptBlock_congr (hvar : s₁.var = s₂.var) (hrk : s₁.rk = s₂.rk) :
    s₁.encryptBlock = s₂.encryptBlock := by
  have hblock : s₁.roundKeyBlock = s₂.roundKeyBlock := by
    funext i; rw [State.roundKeyBlock, State.roundKey_congr hrk, State.roundKeyBlock]
  funext blk; rw [State.encryptBlock, hvar, hblock, State.encryptBlock]

/-- A SEED writes every register, so the registers before it do not matter. -/
theorem State.loadSeed_tuple (s₁ s₂ : State) (var : BitVec 2) (rk : Vector Word 15) (c : Word) :
    (s₁.loadSeed var rk c).tuple = (s₂.loadSeed var rk c).tuple := rfl

/-- Moving CTR to the same value keeps registers equal. -/
theorem State.setCtr_tuple_congr (h : s₁.tuple = s₂.tuple) (c : Word) :
    (s₁.setCtr c).tuple = (s₂.setCtr c).tuple := by
  obtain ⟨hseeded, hvar, hrk, -⟩ := State.tuple_eq_iff.1 h
  exact State.tuple_eq_iff.2 ⟨hseeded, hvar, hrk, rfl⟩

/-- Equal registers and equal DIN give equal answers, whatever else the states hold. -/
theorem exec_sameAnswer (i : Instr) (h : s₁.tuple = s₂.tuple) (hdin : s₁.din = s₂.din) :
    SameAnswer (exec i s₁) (exec i s₂) := by
  obtain ⟨hseeded, hvar, hrk, hctr⟩ := State.tuple_eq_iff.1 h
  have hkey := State.roundKey_congr hrk
  have hencrypt := State.encryptBlock_congr hvar hrk
  cases i with
  | nop => exact sameAnswer_respond h ..
  | seed arg => rw [exec_seed, exec_seed, hdin]; exact sameAnswer_respond (State.loadSeed_tuple ..) ..
  | zeroize => exact sameAnswer_respond (s₁ := s₁.clear) (s₂ := s₂.clear) rfl ..
  | status =>
    have hword : statusWord s₁ = statusWord s₂ := by simp only [statusWord, hvar, hseeded]
    rw [exec_status, exec_status, hword]
    exact sameAnswer_respond h ..
  | next =>
    refine whenSeeded_sameAnswer h ?_
    rw [hencrypt, hvar, hctr]
    exact sameAnswer_respond (State.setCtr_tuple_congr h _) ..
  | counter =>
    refine whenSeeded_sameAnswer h ?_
    rw [hvar, hctr]
    exact sameAnswer_respond h ..
  | jump =>
    refine whenSeeded_sameAnswer h (whenWideCounter_sameAnswer h ?_)
    rw [hctr]
    exact sameAnswer_respond (State.setCtr_tuple_congr h _) ..
  | longJump =>
    refine whenSeeded_sameAnswer h (whenWideCounter_sameAnswer h ?_)
    rw [hctr]
    exact sameAnswer_respond (State.setCtr_tuple_congr h _) ..
  | encrypt =>
    refine whenSeeded_sameAnswer h ?_
    rw [hencrypt, hdin]
    exact sameAnswer_respond h ..
  | readRk idx =>
    refine whenSeeded_sameAnswer h (whenInRange_sameAnswer idx h ?_)
    rw [hkey]
    exact sameAnswer_respond h ..

/-- A request leaves equal registers and an equal response in two blocks with equal registers. -/
theorem perform_congr (h : s₁.tuple = s₂.tuple) (r : Request) :
    (s₁.perform r).tuple = (s₂.perform r).tuple ∧ (s₁.perform r).response = (s₂.perform r).response := by
  cases hd : decode r.cmd with
  | command i =>
    have answer := exec_sameAnswer (s₁ := s₁.accept r s₁.inputs) (s₂ := s₂.accept r s₂.inputs) i h rfl
    rw [exec_perform hd, exec_perform hd] at answer
    exact answer.tuple_response
  | illegal why => rw [perform_illegal hd, perform_illegal hd]; exact ⟨h, rfl⟩

/-! ### Requests in order (R48) -/

/-- Serving a request leaves the rest of the port as it was, with nothing in flight (R49, R52). -/
theorem perform_port (s : State) (r : Request) :
    (s.perform r).inputs = s.inputs ∧ (s.perform r).inFlight = none := by
  cases hd : decode r.cmd with
  | command i =>
    obtain ⟨u, st, d, hexec, hinputs, -⟩ := exec_cases i (s.accept r s.inputs)
    rw [perform_command hd hexec]
    exact ⟨hinputs, rfl⟩
  | illegal why => rw [perform_illegal hd]; exact ⟨rfl, rfl⟩

theorem State.eq_of_tuple_port (htuple : s₁.tuple = s₂.tuple) (hinputs : s₁.inputs = s₂.inputs)
    (hinFlight : s₁.inFlight = s₂.inFlight) (hresponse : s₁.response = s₂.response) : s₁ = s₂ := by
  obtain ⟨hseeded, hvar, hrk, hctr⟩ := State.tuple_eq_iff.1 htuple
  cases s₁; cases s₂
  simp_all only

/-- What waits on the port does not matter to the request that is served (R49). -/
theorem perform_with_inputs (s : State) (r : Request) (l : List PortInput) :
    ({ s with inputs := l } : State).perform r = { s.perform r with inputs := l } := by
  obtain ⟨htuple, hresponse⟩ := perform_congr (s₁ := { s with inputs := l }) (s₂ := s) rfl r
  obtain ⟨hinputs, hinFlight⟩ := perform_port { s with inputs := l } r
  obtain ⟨-, hinFlight'⟩ := perform_port s r
  exact State.eq_of_tuple_port htuple hinputs (hinFlight.trans hinFlight'.symm) hresponse

/-- Settles O10, by induction on the requests: a step serves the first and leaves the others on the port. -/
theorem requestsFoldInOrder : Obligations.RequestsFoldInOrder := by
  intro rs
  induction rs with
  | nil => intro s; rfl
  | cons r rs ih =>
    intro s
    obtain ⟨hinputs, -⟩ := perform_port s r
    have first := step_withRequest { s with inputs := rs.map .request ++ s.inputs } r
    calc Sys2Proof.core.run (rs.length + 1) { s with inputs := (r :: rs).map .request ++ s.inputs }
        = Sys2Proof.core.run rs.length { s.perform r with inputs := rs.map .request ++ s.inputs } := by
          rw [← perform_with_inputs]; exact core_run_succ first
      _ = .next (rs.foldl State.perform (s.perform r)) := by rw [← hinputs]; exact ih (s.perform r)

/-! ### Side effects and idempotence (R47) -/

theorem Request.commandIs_iff : r.commandIs i = true ↔ decode r.cmd = .command i := by
  simp [Request.commandIs]

/-- The commands that can change a register are the two that load or clear all of them and the three that move CTR. -/
theorem isReadOnly_cases (i : Instr) : i.isReadOnly = true ∨ (∃ arg, i = .seed arg) ∨ i = .zeroize ∨
    i = .next ∨ i = .jump ∨ i = .longJump := by
  cases i <;> simp [Instr.isReadOnly]

theorem exec_readOnly (hro : i.isReadOnly = true) (h : exec i s = .next t) : t.tuple = s.tuple := by
  obtain ⟨arg, rfl, -⟩ | ⟨rfl, -⟩ | ⟨-, rfl, -⟩ | ⟨-, -, rfl, -⟩ | ⟨-, -, rfl, -⟩ | ⟨-, -, -, st, d, rfl, -⟩ :=
    exec_inversion h
  · cases hro
  · cases hro
  · cases hro
  · cases hro
  · cases hro
  · rfl

/-- The commands that advance the stream keep SEEDED, VAR and RK. -/
theorem exec_advance_frame (hi : i = .next ∨ i = .jump ∨ i = .longJump) (h : exec i s = .next t) :
    t.seeded = s.seeded ∧ t.var = s.var ∧ t.rk = s.rk := by
  obtain ⟨arg, rfl⟩ | rfl | ⟨hseeded, hvar, hrk, -⟩ := exec_writers h
  · simp at hi
  · simp at hi
  · exact ⟨hseeded, hvar, hrk⟩

/-- A request that does not advance the stream, sent twice, leaves what it left the first time: it changes no
register, or it sets all of them to values that do not depend on them. -/
theorem perform_idempotent (s : State) (hnext : r.commandIs .next = false) (hjump : r.commandIs .jump = false)
    (hlong : r.commandIs .longJump = false) :
    ((s.perform r).perform r).tuple = (s.perform r).tuple ∧
      ((s.perform r).perform r).response = (s.perform r).response := by
  cases hd : decode r.cmd with
  | illegal why => exact perform_congr (by rw [perform_illegal hd]; rfl) r
  | command i =>
    have his := Request.commandIs_of_decode hd
    obtain hro | ⟨arg, rfl⟩ | rfl | rfl | rfl | rfl := isReadOnly_cases i
    · have same := exec_readOnly hro (exec_perform (s := s) hd)
      rw [State.accept_tuple] at same
      exact perform_congr same r
    · rw [perform_command hd (exec_seed ..), perform_command hd (exec_seed ..)]
      exact ⟨rfl, rfl⟩
    · rw [perform_command hd (exec_zeroize _), perform_command hd (exec_zeroize _)]
      exact ⟨rfl, rfl⟩
    · simp [his] at hnext
    · simp [his] at hjump
    · simp [his] at hlong

theorem ctrInc_ne_self (c : Word) (cw : Nat) : ctrInc c cw ≠ c := by
  intro h
  by_cases hcw : cw = 64
  · have low := ctrInc_64_low c
    rw [hcw] at h
    rw [h] at low
    exact absurd low.symm (by simp)
  · have wide : c + 1#128 = c := by rwa [ctrInc, if_neg hcw] at h
    exact absurd wide (by simp)

/-- A NEXT of a seeded block, or a jump of a seeded C128 block. -/
def AdvancesCtr (s : State) (r : Request) : Prop :=
  s.seeded = true ∧ (r.commandIs .next = true ∨
    (cwOf s.var = 128 ∧ (r.commandIs .jump = true ∨ r.commandIs .longJump = true)))

theorem AdvancesCtr.ctr_ne (h : AdvancesCtr s r) : (s.perform r).ctr ≠ s.ctr := by
  obtain ⟨hs, hnext | ⟨hcw, hjump | hlong⟩⟩ := h
  · rw [perform_command (Request.commandIs_iff.1 hnext) (exec_next_seeded hs)]
    exact ctrInc_ne_self _ _
  · have hw : cwOf s.var ≠ 64 := by omega
    rw [perform_command (Request.commandIs_iff.1 hjump) (exec_jump_wide hs hw)]
    simp [jumpDistance]
  · have hw : cwOf s.var ≠ 64 := by omega
    rw [perform_command (Request.commandIs_iff.1 hlong) (exec_longJump_wide hs hw)]
    simp [longJumpDistance]

/-- The block is ready for the same request again. -/
theorem AdvancesCtr.perform (h : AdvancesCtr s r) : AdvancesCtr (s.perform r) r := by
  obtain ⟨hs, hr⟩ := h
  obtain ⟨i, hd, hi⟩ : ∃ i, decode r.cmd = .command i ∧ (i = .next ∨ i = .jump ∨ i = .longJump) := by
    obtain hnext | ⟨-, hjump | hlong⟩ := hr
    · exact ⟨_, Request.commandIs_iff.1 hnext, .inl rfl⟩
    · exact ⟨_, Request.commandIs_iff.1 hjump, .inr (.inl rfl)⟩
    · exact ⟨_, Request.commandIs_iff.1 hlong, .inr (.inr rfl)⟩
  obtain ⟨hseeded, hvar, -⟩ := exec_advance_frame hi (exec_perform (s := s) hd)
  rw [State.accept_seeded] at hseeded
  rw [State.accept_var] at hvar
  exact ⟨hseeded.trans hs, hvar ▸ hr⟩

/-- Settles O30: the frames by the inversion of a command, idempotence because an answer depends on the registers and
DIN alone, and a CTR that moves at every repeat because an advance leaves the block ready for the next one. -/
theorem sideEffectsAndIdempotence : Obligations.SideEffectsAndIdempotence := by
  refine ⟨fun i s t h => ⟨fun hro => exec_readOnly hro h, fun hi => exec_advance_frame hi h⟩,
    fun s r => perform_idempotent s, fun s r hs hr => ?_⟩
  have advances : AdvancesCtr s r := ⟨hs, hr⟩
  exact ⟨advances.ctr_ne, advances.perform.ctr_ne⟩

end Sys2Proof.Machine
end

section
/-!
PROOF. Where the seed fields of each variant lie in DIN (R44).
-/
namespace Sys2Proof.Machine

theorem dinSlice_length (d : Din) {off len : Nat} (h : off + len ≤ 48) : (dinSlice d off len).length = len := by
  simp only [dinSlice, List.length_take, List.length_drop, Vector.length_toList]
  omega

theorem dinSlice_getElem? (d : Din) {off len j : Nat} (hj : j < len) (h : off + j < 48) :
    (dinSlice d off len)[j]? = some d[off + j] := by
  simp [dinSlice, List.getElem?_take_of_lt hj, h]

theorem keyBytesOf_le (var : BitVec 2) : keyBytesOf var ≤ 32 := by unfold keyBytesOf; split <;> omega

/-- The seed's key, byte by byte. -/
theorem seedKey_getElem? (var : BitVec 2) (d : Din) (j : Fin 48) (hj : j.val < keyBytesOf var) :
    (seedKey var d)[j.val]? = some d[j.val] := by
  rw [seedKey, dinSlice_getElem? d hj (by omega)]
  simp only [Nat.zero_add]

/-- A C64 seed: the 8 bytes of the nonce, then the 8 bytes of the counter. -/
theorem seedCtr_toNat_c64 {var : BitVec 2} (d : Din) (h : var.getLsbD 0 = false) :
    (seedCtr var d).toNat = fromLENat (dinSlice d (keyBytesOf var) 8) * 2 ^ 64 +
      fromLENat (dinSlice d (keyBytesOf var + 8) 8) := by
  have hk := keyBytesOf_le var
  rw [seedCtr, if_neg (h ▸ Bool.false_ne_true), joinHalves_toNat, fromLE64_toNat (dinSlice_length d (by omega)),
    fromLE64_toNat (dinSlice_length d (by omega))]

/-- A C128 seed: the 16 bytes of the counter. -/
theorem seedCtr_toNat_c128 {var : BitVec 2} (d : Din) (h : var.getLsbD 0 = true) :
    (seedCtr var d).toNat = fromLENat (dinSlice d (keyBytesOf var) 16) := by
  have hk := keyBytesOf_le var
  rw [seedCtr, if_pos h, fromLE128_toNat (dinSlice_length d (by omega))]

/-- Settles O49: the fields are slices of DIN from the key length on, and a slice is as long as it says. -/
theorem seedFieldsLieInDin : Obligations.SeedFieldsLieInDin := fun var d =>
  ⟨seedKey_length var d, seedKey_getElem? var d, seedCtr_toNat_c64 d, seedCtr_toNat_c128 d⟩

end Sys2Proof.Machine
end

section
/-!
PROOF. The opcode map (R61 to R66, R70): CMD is its two fields, decode is said once for each kind of opcode, and
decode and encode agree.
-/
namespace Sys2Proof

variable {cmd : Byte} {opc arg : BitVec 4} {i j : Instr}

/-! ### The two fields of CMD (R61) -/

theorem opcOf_append (opc arg : BitVec 4) : opcOf (opc ++ arg) = opc := BitVec.extractLsb'_append_eq_left

theorem argOf_append (opc arg : BitVec 4) : argOf (opc ++ arg) = arg := BitVec.extractLsb'_append_eq_right

theorem opcOf_append_argOf (cmd : Byte) : opcOf cmd ++ argOf cmd = cmd := BitVec.extractLsb'_append_extractLsb'

/-! ### Decode by kind of opcode (R62 to R66, R70) -/

/-- The commands that use ARG: SEED for its variant and READ_RK for its index (R62, R63). -/
def Instr.usesArg : Instr → Bool
  | .seed _ | .readRk _ => true
  | .nop | .next | .counter | .jump | .longJump | .encrypt | .zeroize | .status => false

/-- An opcode is that of a command without ARG, SEED's, READ_RK's, or reserved (R65, R66). -/
theorem opcode_cases (opc : BitVec 4) :
    (∃ i : Instr, i.usesArg = false ∧ opc = opcode i) ∨ opc = 0x1#4 ∨ opc = 0x7#4 ∨ 0xA#4 ≤ opc := by
  have listed : ∀ opc : BitVec 4,
      (∃ i ∈ [Instr.nop, .next, .counter, .jump, .longJump, .encrypt, .zeroize, .status],
        i.usesArg = false ∧ opc = opcode i) ∨ opc = 0x1#4 ∨ opc = 0x7#4 ∨ 0xA#4 ≤ opc := by decide
  exact (listed opc).imp_left fun ⟨i, _, hi⟩ => ⟨i, hi⟩

theorem decode_append_noArg (hi : i.usesArg = false) (arg : BitVec 4) : decode (opcode i ++ arg) = noArg arg i := by
  rw [decode, opcOf_append, argOf_append]
  cases i with
  | seed _ | readRk _ => cases hi
  | nop | next | counter | jump | longJump | encrypt | zeroize | status => rfl

theorem decode_append_seed (arg : BitVec 4) : decode (0x1#4 ++ arg) = seedOf arg := by
  rw [decode, opcOf_append, argOf_append]; rfl

theorem decode_append_readRk (arg : BitVec 4) : decode (0x7#4 ++ arg) = .command (.readRk arg) := by
  rw [decode, opcOf_append, argOf_append]; rfl

theorem decode_append_reserved (h : 0xA#4 ≤ opc) (arg : BitVec 4) :
    decode (opc ++ arg) = .illegal .reservedOpcode := by
  have hopc : 10 ≤ opc.toNat := h
  rw [decode, opcOf_append, argOf_append]
  split
  case h_11 => rfl
  all_goals omega

/-! ### Decode and encode (R61, R70) -/

theorem noArg_eq_command : noArg arg i = .command j ↔ arg = 0#4 ∧ i = j := by
  unfold noArg; split <;> simp [*]

theorem seedOf_eq_command : seedOf arg = .command j ↔ seedArgOk arg = true ∧ .seed arg = j := by
  unfold seedOf; split <;> simp [*]

/-- A command without ARG is well-formed, and its word has ARG 0. -/
theorem noArg_fields (hi : i.usesArg = false) : i.WellFormed ∧ argument i = 0#4 := by
  cases i with
  | seed _ | readRk _ => cases hi
  | nop | next | counter | jump | longJump | encrypt | zeroize | status => exact ⟨rfl, rfl⟩

open Laws.EncodedWordDecodes in
/-- The word of a well-formed command decodes to it: the family `EncodedWordDecodes` over all commands. -/
theorem decode_encode (h : i.WellFormed) : decode (encode i) = .command i := by
  cases i with
  | nop => exact nop h
  | seed arg => exact seed arg h
  | next => exact next h
  | counter => exact counter h
  | jump => exact jump h
  | longJump => exact longJump h
  | encrypt => exact encrypt h
  | readRk idx => exact readRk idx h
  | zeroize => exact zeroize h
  | status => exact status h

/-- A word that decodes to a command is the word of that command, and the command is well-formed. -/
theorem encode_of_decode (h : decode cmd = .command i) : i.WellFormed ∧ encode i = cmd := by
  rw [← opcOf_append_argOf cmd] at h ⊢
  generalize opcOf cmd = opc, argOf cmd = arg at h ⊢
  obtain ⟨j, hj, rfl⟩ | rfl | rfl | hreserved := opcode_cases opc
  · rw [decode_append_noArg hj, noArg_eq_command] at h
    obtain ⟨rfl, rfl⟩ := h
    obtain ⟨hwf, harg⟩ := noArg_fields hj
    exact ⟨hwf, by rw [encode, harg]⟩
  · rw [decode_append_seed, seedOf_eq_command] at h
    obtain ⟨hok, rfl⟩ := h
    exact ⟨hok, rfl⟩
  · rw [decode_append_readRk] at h; cases h
    exact ⟨rfl, rfl⟩
  · rw [decode_append_reserved hreserved] at h; cases h

/-- Settles O4: a word is its two fields, and each kind of opcode decodes to commands with those fields alone. -/
theorem decodeAndEncodeAgree : Obligations.DecodeAndEncodeAgree := by
  intro cmd i
  refine ⟨encode_of_decode, fun ⟨hwf, hcmd⟩ => ?_⟩
  rw [← hcmd]
  exact decode_encode hwf

/-! ### Words written out, and the whole map (R65, R70) -/

/-- Settles O1: each legal word is the encoding of its command; the last three have a reserved field. -/
theorem writtenWordsDecode : Obligations.WrittenWordsDecode :=
  ⟨decode_encode (i := .nop) rfl, decode_encode (i := .seed 0b0010) rfl, decode_encode (i := .next) rfl,
    decode_encode (i := .counter) rfl, decode_encode (i := .jump) rfl, decode_encode (i := .longJump) rfl,
    decode_encode (i := .encrypt) rfl, decode_encode (i := .readRk 0b1010) rfl, decode_encode (i := .zeroize) rfl,
    decode_encode (i := .status) rfl, decode_append_seed 0b0100, decode_append_noArg (i := .jump) rfl 0b0001,
    decode_append_reserved (opc := 0xA) (by decide) 0b0000⟩

theorem seedOf_eq (arg : BitVec 4) : seedOf arg =
    if arg.extractLsb' 2 2 = 0#2 then .command (.seed arg) else .illegal .reservedVariantBits := by
  simp only [seedOf, seedArgOk, beq_iff_eq]

/-- Settles O2: the map by kind of opcode, and the count by decoding each of the 256 words. -/
theorem decodeFollowsOpcodeMap : Obligations.DecodeFollowsOpcodeMap := by
  refine ⟨fun arg => ⟨decode_append_noArg (i := .nop) rfl arg, (decode_append_seed arg).trans (seedOf_eq arg),
    decode_append_noArg (i := .next) rfl arg, decode_append_noArg (i := .counter) rfl arg,
    decode_append_noArg (i := .jump) rfl arg, decode_append_noArg (i := .longJump) rfl arg,
    decode_append_noArg (i := .encrypt) rfl arg, decode_append_readRk arg,
    decode_append_noArg (i := .zeroize) rfl arg, decode_append_noArg (i := .status) rfl arg⟩,
    fun opc arg h => decode_append_reserved h arg, ?count⟩
  case count => decide +kernel

end Sys2Proof
end

section
/-!
PROOF. Ignored DIN bytes have no effect (R28, R67): the operand fields of a command lie in the bytes it uses, and a
command leaves nothing of its request behind.
-/
namespace Sys2Proof.Machine

variable {d₁ d₂ : Din} {r₁ r₂ : Request} {i : Instr}

/-- The two DINs agree on their first n bytes. -/
def AgreeUpTo (n : Nat) (d₁ d₂ : Din) : Prop := ∀ j : Fin 48, j.val < n → d₁[j.val] = d₂[j.val]

theorem dinSlice_congr {off len : Nat} (h : AgreeUpTo (off + len) d₁ d₂) :
    dinSlice d₁ off len = dinSlice d₂ off len := by
  have same_bytes : d₁.toList.take (off + len) = d₂.toList.take (off + len) :=
    List.ext_getElem (by simp) fun j hj _ => by
      rw [List.length_take, Vector.length_toList, lt_min_iff] at hj
      simpa using h ⟨j, hj.2⟩ hj.1
  calc (d₁.toList.drop off).take len
      = (d₁.toList.take (off + len)).drop off := by rw [List.drop_take, Nat.add_sub_cancel_left]
    _ = (d₂.toList.take (off + len)).drop off := by rw [same_bytes]
    _ = (d₂.toList.drop off).take len := by rw [List.drop_take, Nat.add_sub_cancel_left]

theorem AgreeUpTo.mono {m n : Nat} (h : AgreeUpTo n d₁ d₂) (hmn : m ≤ n) : AgreeUpTo m d₁ d₂ :=
  fun j hj => h j (Nat.lt_of_lt_of_le hj hmn)

/-- A SEED reads its key and counter from `DIN[0..K+15]` (R44). -/
theorem seedFields_congr {var : BitVec 2} (h : AgreeUpTo (seedBytesOf var) d₁ d₂) :
    seedKey var d₁ = seedKey var d₂ ∧ seedCtr var d₁ = seedCtr var d₂ := by
  have slice {off len : Nat} (hle : off + len ≤ keyBytesOf var + 16) : dinSlice d₁ off len = dinSlice d₂ off len :=
    dinSlice_congr (h.mono hle)
  refine ⟨slice (by omega), ?ctr⟩
  rw [seedCtr, seedCtr, slice (len := 16) (by omega), slice (off := keyBytesOf var) (len := 8) (by omega),
    slice (off := keyBytesOf var + 8) (by omega)]

/-- An ENCRYPT reads its plaintext from `DIN[0..15]` (R161). -/
theorem plaintext_congr (h : AgreeUpTo 16 d₁ d₂) : plaintext d₁ = plaintext d₂ := by
  refine Vector.ext fun j hj => ?_
  simpa [plaintext] using h ⟨j, by omega⟩ hj

/-- Two requests that agree on the bytes a command uses give the same outcome, port included: the command reads those
bytes alone, and its response drops the request. -/
theorem exec_accept_congr (s : State) (rest : List PortInput) (h : AgreeUpTo i.dinUsed r₁.din r₂.din) :
    exec i (s.accept r₁ rest) = exec i (s.accept r₂ rest) := by
  cases i with
  | seed arg =>
    obtain ⟨hkey, hctr⟩ := seedFields_congr h
    rw [exec_seed, exec_seed, State.accept_din, State.accept_din, hkey, hctr]
    rfl
  | encrypt =>
    have hplain := plaintext_congr h
    rw [exec, exec, execEncrypt, execEncrypt, State.accept_din, State.accept_din, hplain]
    rfl
  | nop | next | counter | jump | longJump | readRk _ | zeroize | status => rfl

/-- Settles O31: from the same block the two requests give one outcome, and equal registers give equal answers. -/
theorem resultsDependOnlyOnRegistersAndUsedDin : Obligations.ResultsDependOnlyOnRegistersAndUsedDin := by
  intro s₁ s₂ r₁ r₂ i htuple hd₁ hd₂ hdin
  have same : s₁.perform r₁ = s₁.perform r₂ :=
    perform_command hd₁ ((exec_accept_congr s₁ s₁.inputs hdin).trans (exec_perform hd₂))
  rw [same]
  exact perform_congr htuple r₂

end Sys2Proof.Machine
end

section
/-!
PROOF. The host's requests (R71, R72): what an assembler line encodes to, and what each call of the API leaves in the
block and takes from it.
-/
namespace Sys2Proof.Machine

variable {s t : State} {r : Request} {i : Instr} {var : BitVec 2} {l : AsmLine}

/-! ### DIN with zeros after its data (R71) -/

theorem padDin_getElem (data : List Byte) (j : Fin 48) : (padDin data)[j.val] = data.getD j.val 0 := by
  simp [padDin]

theorem padDin_nil : padDin [] = Vector.replicate 48 0 := Vector.ext fun j hj => by simp [padDin]

/-- A slice that lies in the data is that part of the data. -/
theorem dinSlice_padDin {data : List Byte} {off len : Nat} (h : off + len ≤ data.length) (h48 : data.length ≤ 48) :
    dinSlice (padDin data) off len = (data.drop off).take len := by
  have hlen : (dinSlice (padDin data) off len).length = len := dinSlice_length _ (by omega)
  refine List.ext_getElem (by rw [hlen, List.length_take, List.length_drop]; omega) fun j hj _ => ?_
  rw [hlen] at hj
  have hdata : off + j < data.length := by omega
  simp [dinSlice, padDin, hdata]

/-! ### The words and lines of the assembler (R71) -/

theorem encode_toNat (i : Instr) : (encode i).toNat = 16 * (opcode i).toNat + (argument i).toNat := by
  rw [encode, BitVec.toNat_append, ← Nat.shiftLeft_add_eq_or_of_lt (argument i).isLt, Nat.shiftLeft_eq]
  omega

theorem requestOf_nil (i : Instr) : requestOf i [] = ⟨encode i, Vector.replicate 48 0⟩ := by
  rw [requestOf, padDin_nil]

theorem seedRequest_cmd (var : BitVec 2) (seed : List Byte) :
    (seedRequest var seed).cmd = 0x10 + var.setWidth 8 := by
  have words : ∀ var : BitVec 2, encode (.seed (var.setWidth 4)) = 0x10 + var.setWidth 8 := by decide
  exact words var

theorem seedBytesOf_eq (var : BitVec 2) : seedBytesOf var = if var.getLsbD 1 then 48 else 32 := by
  unfold seedBytesOf keyBytesOf; split <;> rfl

theorem AsmLine.assemble_of_wf (h : l.wf = true) : l.assemble = some l.request := if_pos h

/-- A line without operand is its command with DIN all zeros. -/
theorem AsmLine.assemble_plain (h : l.wf = true) (hl : l.request = requestOf i []) :
    l.assemble = some ⟨encode i, Vector.replicate 48 0⟩ := by
  rw [AsmLine.assemble_of_wf h, hl, requestOf_nil]

/-- Settles O52: an accepted line is its request, whose word is the encoding of the command and whose DIN is padded. -/
theorem assemblerEncodesLines : Obligations.AssemblerEncodesLines := by
  refine ⟨fun var bytes hlen => ?seed, fun bytes hlen => ?encrypt, fun idx hidx => ?readRk, fun l cmd hl => ?plain,
    fun cmd bytes hlen => ?word⟩
  case seed =>
    have hwf : (AsmLine.seed var bytes).wf = true := beq_iff_eq.2 (hlen.trans (seedBytesOf_eq var).symm)
    exact ⟨_, AsmLine.assemble_of_wf hwf, seedRequest_cmd var bytes, padDin_getElem bytes⟩
  case encrypt => exact ⟨_, AsmLine.assemble_of_wf (beq_iff_eq.2 hlen), rfl, padDin_getElem bytes⟩
  case readRk =>
    refine ⟨_, AsmLine.assemble_of_wf (decide_eq_true hidx), ?_, padDin_nil⟩
    have hmod : idx % 16 = idx := Nat.mod_eq_of_lt (by omega)
    exact (encode_toNat _).trans (congrArg (0x70 + ·) hmod)
  case plain =>
    simp only [List.mem_cons, Prod.mk.injEq, List.not_mem_nil, or_false] at hl
    obtain ⟨rfl, rfl⟩ | ⟨rfl, rfl⟩ | ⟨rfl, rfl⟩ | ⟨rfl, rfl⟩ | ⟨rfl, rfl⟩ | ⟨rfl, rfl⟩ | ⟨rfl, rfl⟩ := hl
    · exact AsmLine.assemble_plain (i := .nop) rfl rfl
    · exact AsmLine.assemble_plain (i := .next) rfl rfl
    · exact AsmLine.assemble_plain (i := .counter) rfl rfl
    · exact AsmLine.assemble_plain (i := .jump) rfl rfl
    · exact AsmLine.assemble_plain (i := .longJump) rfl rfl
    · exact AsmLine.assemble_plain (i := .zeroize) rfl rfl
    · exact AsmLine.assemble_plain (i := .status) rfl rfl
  case word => exact ⟨_, AsmLine.assemble_of_wf (decide_eq_true hlen), rfl, padDin_getElem bytes⟩

/-! ### Serving the requests of a call (R72) -/

theorem perform_requestOf {data : List Byte} (h : i.WellFormed)
    (hexec : exec i (s.accept (requestOf i data) s.inputs) = .next t) : s.perform (requestOf i data) = t :=
  perform_command (decode_encode h) hexec

theorem responses_single {st : Status} {d : Word} (h : s.perform r = t.respond st d) :
    s.responses [r] = [⟨st, d⟩] := by
  rw [State.responses, h]; rfl

theorem perform_next (hs : s.seeded = true) : s.perform (requestOf .next []) =
    ((s.accept (requestOf .next []) s.inputs).setCtr (ctrInc s.ctr (cwOf s.var))).respond .ok
      (fromLEBlock (s.encryptBlock (le128 s.ctr))) :=
  perform_requestOf rfl (exec_next_seeded hs)

/-- A jump call of a seeded C128 block answers CTR. -/
theorem responses_jump {call : ApiCall} (hs : s.seeded = true) (hcw : cwOf s.var = 128)
    (hcall : call ∈ [.jump, .longJump]) : s.responses call.requests = [⟨.ok, s.ctr⟩] := by
  have hw : cwOf s.var ≠ 64 := by omega
  simp only [List.mem_cons, List.not_mem_nil, or_false] at hcall
  obtain rfl | rfl := hcall
  · exact responses_single (perform_requestOf rfl (exec_jump_wide hs hw))
  · exact responses_single (perform_requestOf rfl (exec_longJump_wide hs hw))

theorem statusWord_hwacc (s : State) : (statusWord s).getLsbD 0 = Config.hwacc := by
  rw [statusWord, BitVec.getLsbD_setWidth, BitVec.getLsbD_append]; rfl

/-- `counter()` takes the stream position, whichever half or whole of CTR that is (R144). -/
theorem counterValue_counter (s : State) : counterValue s.var
    ⟨.ok, if cwOf s.var = 64 then (s.ctr.extractLsb' 0 64).setWidth 128 else s.ctr⟩ =
      if cwOf s.var = 64 then s.ctr.toNat % 2 ^ 64 else s.ctr.toNat := by
  unfold counterValue
  split
  · simp
  · rfl

/-! ### The seeding calls and the snapshot (R44, R148) -/

theorem seedVar_setWidth (var : BitVec 2) :
    seedVar (var.setWidth 4) = var ∧ (Instr.seed (var.setWidth 4)).WellFormed := by
  revert var; unfold Instr.WellFormed; decide

/-- A SEED request loads the key and the counter that its padded DIN holds. -/
theorem perform_seedRequest (s : State) (var : BitVec 2) (seed : List Byte) : s.perform (seedRequest var seed) =
    ((s.accept (seedRequest var seed) s.inputs).loadSeed var (seedRoundKeys var (seedKey var (padDin seed)))
      (seedCtr var (padDin seed))).respond .ok 0 := by
  obtain ⟨hvar, hwf⟩ := seedVar_setWidth var
  refine perform_requestOf hwf ?_
  rw [exec_seed, hvar]
  rfl

section
variable {seed : List Byte} (hlen : seed.length = seedBytesOf var)
include hlen

/-- The fields of a seed of the variant's length are not touched by the padding. -/
theorem dinSlice_padDin_seed {off len : Nat} (h : off + len ≤ seedBytesOf var) :
    dinSlice (padDin seed) off len = (seed.drop off).take len := by
  have hk := keyBytesOf_le var
  exact dinSlice_padDin (by omega) (by unfold seedBytesOf at hlen; omega)

/-- The last field of a seed is all that is left of it. -/
theorem dinSlice_padDin_seed_end {off len : Nat} (h : off + len = seedBytesOf var) :
    dinSlice (padDin seed) off len = seed.drop off := by
  rw [dinSlice_padDin_seed hlen h.le, List.take_of_length_le (by rw [List.length_drop]; omega)]

theorem seedKey_padDin : seedKey var (padDin seed) = seed.take (keyBytesOf var) :=
  dinSlice_padDin_seed hlen (by unfold seedBytesOf; omega)

theorem seedCtr_padDin : seedCtr var (padDin seed) =
    if var.getLsbD 0 then fromLE128 (seed.drop (keyBytesOf var))
    else joinHalves (fromLE64 ((seed.drop (keyBytesOf var)).take 8)) (fromLE64 (seed.drop (keyBytesOf var + 8))) := by
  rw [seedCtr, dinSlice_padDin_seed_end hlen (len := 16) rfl,
    dinSlice_padDin_seed hlen (len := 8) (by unfold seedBytesOf; omega), dinSlice_padDin_seed_end hlen (len := 8) rfl]

end

theorem requests_of_seeding {call : ApiCall} {seed : List Byte}
    (h : call ∈ [.fromSeed var seed, .reseed var seed, .fromEntropy var seed, .seedFromEntropy var seed]) :
    call.requests = [seedRequest var seed] := by
  simp only [List.mem_cons, List.not_mem_nil, or_false] at h
  obtain rfl | rfl | rfl | rfl := h <;> rfl

/-- The snapshot's seed is the kept key, then CTR's 16 bytes: it loads that key's expansion and CTR itself (R148). -/
theorem perform_jumpSnapshot (s₁ : State) {key : List Byte} {resp : Response} (hvar : var.getLsbD 0 = true)
    (hkey : key.length = keyBytesOf var) :
    s₁.perform (jumpSnapshot var key resp) =
      ((s₁.accept (jumpSnapshot var key resp) s₁.inputs).loadSeed var (seedRoundKeys var key) resp.dout).respond
        .ok 0 := by
  have hlen : (key ++ leWordBytes resp.dout).length = seedBytesOf var := by
    rw [List.length_append, hkey, leWordBytes, Vector.length_toList, seedBytesOf]
  have hctr : fromLE128 (leWordBytes resp.dout) = resp.dout := fromLEBlock_le128 resp.dout
  have served := perform_seedRequest s₁ var (key ++ leWordBytes resp.dout)
  rwa [seedKey_padDin hlen, seedCtr_padDin hlen, if_pos hvar, List.take_left' hkey, List.drop_left' hkey, hctr] at served

/-! ### The bytes of successive NEXTs (R43, R72) -/

/-- The response to the NEXT that comes after j NEXTs. -/
def nextResponse (s : State) (j : Nat) : Response :=
  ⟨.ok, fromLEBlock (s.encryptBlock (le128 ((fun x => ctrInc x (cwOf s.var))^[j] s.ctr)))⟩

theorem nextResponse_perform_next (hs : s.seeded = true) (j : Nat) :
    nextResponse (s.perform (requestOf .next [])) j = nextResponse s (j + 1) := by
  rw [perform_next hs]; rfl

theorem responses_replicate_next (m : Nat) (hs : s.seeded = true) :
    s.responses (List.replicate m (requestOf .next [])) = (List.range m).map (nextResponse s) := by
  induction m generalizing s with
  | zero => rfl
  | succ m ih =>
    have hs' : (s.perform (requestOf .next [])).seeded = true := by rw [perform_next hs]; exact hs
    have first : (s.perform (requestOf .next [])).response = some (nextResponse s 0) := by rw [perform_next hs]; rfl
    rw [List.replicate_succ, State.responses, ih hs', first, List.range_succ_eq_map, List.map_cons, List.map_map]
    exact congrArg (nextResponse s 0 :: ·) (List.map_congr_left fun j _ => nextResponse_perform_next hs j)

theorem doutBytes_nextResponse (s : State) (j : Nat) : (nextResponse s j).doutBytes =
    s.encryptBlock (le128 ((fun x => ctrInc x (cwOf s.var))^[j] s.ctr)) := le128_fromLEBlock _

/-- Byte j of the DOUT bytes in order is byte `j % 16` of response `j / 16`. -/
theorem flatMap_doutBytes_getElem? (rs : List Response) (j : Nat) :
    (rs.flatMap fun r => r.doutBytes.toList)[j]? = rs[j / 16]?.bind fun r => r.doutBytes.toList[j % 16]? := by
  induction rs generalizing j with
  | nil => rfl
  | cons r rs ih =>
    rw [List.flatMap_cons]
    by_cases hj : j < 16
    · rw [List.getElem?_append_left (by simpa using hj), Nat.div_eq_of_lt hj, Nat.mod_eq_of_lt hj]; rfl
    · have hdiv : j / 16 = (j - 16) / 16 + 1 := by omega
      have hmod : j % 16 = (j - 16) % 16 := by omega
      rw [List.getElem?_append_right (by simpa using hj), Vector.length_toList, ih, hdiv, hmod, List.getElem?_cons_succ]

theorem flatMap_doutBytes_length (rs : List Response) :
    (rs.flatMap fun r => r.doutBytes.toList).length = 16 * rs.length := by
  simp [List.length_flatMap, mul_comm]

/-- `fill_bytes` of a seeded block: n bytes, each of them one of the keystream's. -/
theorem filledBytes_fillBytes (n : Nat) (hs : s.seeded = true) :
    let rs := s.responses (ApiCall.fillBytes n).requests
    (∀ r ∈ rs, r.status = .ok) ∧ (filledBytes n rs).length = n ∧
    ∀ j, j < n → (filledBytes n rs)[j]? =
      (s.encryptBlock (le128 ((fun x => ctrInc x (cwOf s.var))^[j / 16] s.ctr))).toList[j % 16]? := by
  intro rs
  have hrs : rs = (List.range ((n + 15) / 16)).map (nextResponse s) := responses_replicate_next _ hs
  refine ⟨fun r hr => ?ok, ?length, fun j hj => ?byte⟩
  case ok =>
    rw [hrs] at hr
    obtain ⟨j, -, rfl⟩ := List.mem_map.1 hr
    rfl
  case length =>
    rw [filledBytes, List.length_take, flatMap_doutBytes_length, hrs, List.length_map, List.length_range]
    omega
  case byte =>
    have hj' : j / 16 < (n + 15) / 16 := by omega
    have hblock : rs[j / 16]? = some (nextResponse s (j / 16)) := by
      rw [hrs, List.getElem?_map, List.getElem?_range hj']; rfl
    rw [filledBytes, List.getElem?_take_of_lt hj, flatMap_doutBytes_getElem?, hblock, ← doutBytes_nextResponse]
    rfl

/-! ### The statement -/

/-- Settles O53: each call is served request by request; a seeding call reads its seed back from the padded DIN, and
`fill_bytes` is the responses to successive NEXTs, byte by byte. -/
theorem apiCallsReadTheirValues : Obligations.ApiCallsReadTheirValues := by
  refine ⟨fun s => ?hardware, fun s hs => ?counter, fun s => ?drop, fun s var seed call hlen hcall => ?seeding,
    fun s hs => ?next, fun s s₁ call key hs hcw hcall hkey => ?jump, fun s n hs => filledBytes_fillBytes n hs⟩
  case hardware =>
    exact ⟨_, responses_single (perform_requestOf rfl (exec_status _)), rfl, statusWord_hwacc _⟩
  case counter =>
    exact ⟨_, responses_single (perform_requestOf rfl (exec_counter_seeded hs)), rfl, counterValue_counter s⟩
  case drop =>
    have served := perform_requestOf (s := s) (data := []) rfl (exec_zeroize _)
    change (s.perform (requestOf .zeroize [])).tuple = State.reset.tuple
    rw [served]; rfl
  case seeding =>
    intro k t
    have served := perform_seedRequest s var seed
    have ht : t = s.perform (seedRequest var seed) := congrArg s.performAll (requests_of_seeding hcall)
    rw [requests_of_seeding hcall, ht, served, ← seedKey_padDin hlen, ← seedCtr_padDin hlen]
    exact ⟨responses_single served, rfl, rfl, rfl, rfl⟩
  case next => exact responses_single (perform_next hs)
  case jump =>
    refine ⟨_, responses_jump hs hcw hcall, rfl, rfl, ?_⟩
    intro g₁
    have hg₁ : g₁ = _ := perform_jumpSnapshot s₁ (cwOf_eq_128.1 hcw) hkey
    rw [hg₁]
    exact ⟨rfl, rfl, rfl, rfl⟩

end Sys2Proof.Machine
end

section
/-!
PROOF. The field GF(2^8) and the S-box (R101 to R104). An additive map on bytes is known from its values at eight powers
of x, so the laws of the field product follow from few products. Undoing the affine map on the S-box table gives every
nonzero byte an inverse; hence these bytes are a group of order 255, in which the power 254 is the inverse.
-/
namespace Sys2Proof.Machine

/-! ### Additive maps on bytes -/

/-- `f` turns sums over GF(2) into sums. -/
def XorAdditive (f : Byte → Byte) : Prop := ∀ x y, f (x ^^^ y) = f x ^^^ f y

/-- The byte of the power `x^i`, reduced. -/
def xPow (i : Nat) : Byte := xtime^[i] 1

theorem xor_bitTerm (c : Bool) (p x : Byte) : p ^^^ bitTerm c x = if c then p ^^^ x else p := by
  cases c <;> simp [bitTerm]

/-- A byte is the sum of the powers of x at its set bits. -/
theorem foldl_bits (b : Byte) : (List.range 8).foldl (fun p i => p ^^^ bitTerm (b.getLsbD i) (xPow i)) 0 = b := by
  revert b; decide +kernel

namespace XorAdditive

variable {f g : Byte → Byte}

theorem map_zero (hf : XorAdditive f) : f 0 = 0 := by
  have h := hf 0 0
  rwa [BitVec.xor_self, BitVec.xor_self] at h

theorem map_bitTerm (hf : XorAdditive f) (c : Bool) (x : Byte) : f (bitTerm c x) = bitTerm c (f x) := by
  cases c
  · exact hf.map_zero
  · rfl

theorem map_foldl (hf : XorAdditive f) (c : Nat → Bool) (x : Nat → Byte) (l : List Nat) (p : Byte) :
    f (l.foldl (fun p i => p ^^^ bitTerm (c i) (x i)) p) =
      l.foldl (fun p i => p ^^^ bitTerm (c i) (f (x i))) (f p) := by
  induction l generalizing p with
  | nil => rfl
  | cons i l ih => rw [List.foldl_cons, List.foldl_cons, ih, hf, hf.map_bitTerm]

/-- The value at a byte is the sum of the values at the powers of x it is made of. -/
theorem eq_foldl_bits (hf : XorAdditive f) (b : Byte) :
    f b = (List.range 8).foldl (fun p i => p ^^^ bitTerm (b.getLsbD i) (f (xPow i))) 0 := by
  have h := hf.map_foldl b.getLsbD xPow (List.range 8) 0
  rwa [foldl_bits, hf.map_zero] at h

/-- Additive maps that agree on the eight powers of x are equal. -/
theorem ext (hf : XorAdditive f) (hg : XorAdditive g) (h : ∀ i : Fin 8, f (xPow i) = g (xPow i)) (b : Byte) :
    f b = g b := by
  rw [hf.eq_foldl_bits, hg.eq_foldl_bits]
  refine List.foldl_ext _ _ _ fun p i hi => ?_
  rw [h ⟨i, List.mem_range.1 hi⟩]

protected theorem id : XorAdditive fun a => a := fun _ _ => rfl

theorem comp (hf : XorAdditive f) (hg : XorAdditive g) : XorAdditive fun a => f (g a) :=
  fun x y => (congrArg f (hg x y)).trans (hf ..)

end XorAdditive

theorem xorAdditive_gfMul_right (a : Byte) : XorAdditive fun b => gfMul a b := gfMul_xor_right a

theorem xorAdditive_gfMul_left (b : Byte) : XorAdditive fun a => gfMul a b := fun x y => gfMul_xor_left x y b

theorem xtime_eq_shift_bitTerm (a : Byte) : xtime a = a <<< 1 ^^^ bitTerm (a.getLsbD 7) 0x1B#8 :=
  (xor_bitTerm ..).symm

theorem xorAdditive_xtime : XorAdditive xtime := by
  intro x y
  simp only [xtime_eq_shift_bitTerm, BitVec.shiftLeft_xor_distrib, BitVec.getLsbD_xor, bitTerm_xor_coefficient]
  ac_rfl

/-! ### The laws of the field product (R101, R102) -/

theorem gfMul_one (a : Byte) : gfMul a 1 = a :=
  (xorAdditive_gfMul_left 1).ext .id (by decide +kernel) a

theorem gfMul_zero (a : Byte) : gfMul a 0 = 0 := (xorAdditive_gfMul_right a).map_zero

/-- A factor x can be taken out of the second factor. -/
theorem gfMul_commute_xtime (a : Byte) : Function.Commute (gfMul a) xtime := by
  have on_powers : ∀ i j : Fin 8, gfMul (xPow i) (xtime (xPow j)) = xtime (gfMul (xPow i) (xPow j)) := by
    decide +kernel
  refine ((xorAdditive_gfMul_right a).comp xorAdditive_xtime).ext
    (xorAdditive_xtime.comp (xorAdditive_gfMul_right a)) fun j => ?_
  exact (xorAdditive_gfMul_left _).ext (xorAdditive_xtime.comp (xorAdditive_gfMul_left _)) (on_powers · j) a

theorem gfMul_xtime_iterate (a b : Byte) (n : Nat) : gfMul a (xtime^[n] b) = xtime^[n] (gfMul a b) :=
  (gfMul_commute_xtime a).iterate_right n b

theorem gfMul_xPow (a : Byte) (i : Nat) : gfMul a (xPow i) = xtime^[i] a := by
  rw [xPow, gfMul_xtime_iterate, gfMul_one]

theorem gfMul_comm (a b : Byte) : gfMul a b = gfMul b a := by
  have on_powers (i j : Nat) : gfMul (xPow i) (xPow j) = gfMul (xPow j) (xPow i) := by
    rw [gfMul_xPow, gfMul_xPow, xPow, xPow, ← Function.iterate_add_apply, ← Function.iterate_add_apply, Nat.add_comm]
  refine (xorAdditive_gfMul_left b).ext (xorAdditive_gfMul_right b) (fun i => ?_) a
  exact (xorAdditive_gfMul_right _).ext (xorAdditive_gfMul_left _) (fun j => on_powers i j) b

theorem one_gfMul (a : Byte) : gfMul 1 a = a := by rw [gfMul_comm, gfMul_one]

theorem gfMul_assoc (a b c : Byte) : gfMul (gfMul a b) c = gfMul a (gfMul b c) := by
  refine (xorAdditive_gfMul_right _).ext ((xorAdditive_gfMul_right a).comp (xorAdditive_gfMul_right b)) (fun i => ?_) c
  rw [gfMul_xPow, gfMul_xPow, gfMul_xtime_iterate]

/-! ### xtime as a product (R102) -/

theorem xtime_eq_gfMul (a : Byte) : xtime a = gfMul 0x02 a := (gfMul_xPow a 1).symm.trans (gfMul_comm ..)

/-- `0x03 = 0x02 ^ 0x01`. -/
theorem xtime3_eq_gfMul (a : Byte) : xtime3 a = gfMul 0x03 a :=
  calc xtime a ^^^ a = gfMul 0x02 a ^^^ gfMul 0x01 a := by rw [xtime_eq_gfMul, one_gfMul]
    _ = gfMul (0x02 ^^^ 0x01) a := (gfMul_xor_left ..).symm

/-- Settles O39: the product by a is additive, and its value at the power `x^i` is i times xtime. -/
theorem xtimeIsMultiplicationByTwo : Obligations.XtimeIsMultiplicationByTwo := by
  refine ⟨fun a => ⟨xtime_eq_gfMul a, xtime3_eq_gfMul a⟩, fun a b => ?_⟩
  rw [(xorAdditive_gfMul_right a).eq_foldl_bits b]
  simp only [gfMul_xPow, xor_bitTerm]

/-! ### Powers and the inverse (R101) -/

/-- The inverse of the affine map of the S-box. -/
def sboxAffineInv (b : Byte) : Byte := b.rotateLeft 1 ^^^ b.rotateLeft 3 ^^^ b.rotateLeft 6 ^^^ 0x05#8

theorem sboxAffine_sboxAffineInv (b : Byte) : sboxAffine (sboxAffineInv b) = b := by
  revert b; decide +kernel

/-- The S-box table with its affine map undone lists an inverse of every nonzero byte: the 255 products are computed. -/
theorem gfMul_sboxAffineInv_sbox {a : Byte} (h : a ≠ 0) : gfMul a (sboxAffineInv (sbox a)) = 1 := by
  have products : ∀ a : Byte, a ≠ 0 → gfMul a (sboxAffineInv (sbox a)) = 1 := by decide +kernel
  exact products a h

/-- `a` to the power n in the field. -/
def gfPow (a : Byte) : Nat → Byte
  | 0 => 1
  | n + 1 => gfMul (gfPow a n) a

theorem gfPow_add (a : Byte) (m n : Nat) : gfPow a (m + n) = gfMul (gfPow a m) (gfPow a n) := by
  induction n with
  | zero => exact (gfMul_one _).symm
  | succ n ih => rw [← Nat.add_assoc, gfPow, ih, gfMul_assoc, gfPow]

/-- The field's product, with the inverses of the table. -/
@[reducible] def gfGroupWithZero : GroupWithZero Byte where
  mul := gfMul
  mul_assoc := gfMul_assoc
  one := 1
  one_mul := one_gfMul
  mul_one := gfMul_one
  npow n a := gfPow a n
  npow_zero _ := rfl
  npow_succ _ _ := rfl
  zero := 0
  zero_mul a := (gfMul_comm 0 a).trans (gfMul_zero a)
  mul_zero := gfMul_zero
  exists_pair_ne := ⟨0, 1, by decide⟩
  inv a := sboxAffineInv (sbox a)
  inv_zero := by change sboxAffineInv (sbox 0) = 0; decide
  div a b := gfMul a (sboxAffineInv (sbox b))
  mul_inv_cancel _ := gfMul_sboxAffineInv_sbox

/-- The 255 nonzero bytes are a group, so each to the power 255 is 1. -/
theorem gfPow_255 {a : Byte} (h : a ≠ 0) : gfPow a 255 = 1 := by
  have order : Fintype.card Byte = 256 := FinEnum.card_eq_fintypeCard.symm
  have lagrange := @FiniteField.pow_card_sub_one_eq_one Byte gfGroupWithZero _ a h
  rw [order] at lagrange
  exact lagrange

/-- The running product and square of `gfInv` after n of its steps. -/
theorem gfInv_steps (a : Byte) (n : Nat) :
    (List.range n).foldl (fun (acc : Byte × Byte) _ => (gfMul acc.1 (gfSquare acc.2), gfSquare acc.2)) (1, a) =
      (gfPow a (2 ^ (n + 1) - 2), gfPow a (2 ^ n)) := by
  induction n with
  | zero => exact congrArg _ (one_gfMul a).symm
  | succ n ih =>
    have hsquare : 2 ^ (n + 1) = 2 ^ n + 2 ^ n := by omega
    have hpos : 1 ≤ 2 ^ n := Nat.one_le_two_pow
    have hproduct : 2 ^ (n + 1 + 1) - 2 = (2 ^ (n + 1) - 2) + 2 ^ (n + 1) := by omega
    rw [List.range_succ, List.foldl_append, ih, hproduct, gfPow_add, hsquare, gfPow_add a (2 ^ n)]
    rfl

theorem gfInv_eq_gfPow (a : Byte) : gfInv a = gfPow a 254 := congrArg Prod.fst (gfInv_steps a 7)

theorem gfInv_zero : gfInv 0 = 0 := by rw [gfInv_eq_gfPow, gfPow, gfMul_zero]

theorem gfMul_gfInv {a : Byte} (h : a ≠ 0) : gfMul a (gfInv a) = 1 := by
  rw [gfInv_eq_gfPow, gfMul_comm]
  exact gfPow_255 h

/-- A byte whose product with a is 1 is `inv(a)`: multiply that equation by `inv(a)`. -/
theorem eq_gfInv_of_gfMul_eq_one {a b : Byte} (ha : a ≠ 0) (h : gfMul a b = 1) : b = gfInv a :=
  calc b = gfMul (gfMul a (gfInv a)) b := by rw [gfMul_gfInv ha, one_gfMul]
    _ = gfMul (gfInv a) (gfMul a b) := by rw [gfMul_comm a, gfMul_assoc]
    _ = gfInv a := by rw [h, gfMul_one]

theorem gfInv_ne_zero {a : Byte} (h : a ≠ 0) : gfInv a ≠ 0 := by
  intro hinv
  have product := gfMul_gfInv h
  rw [hinv, gfMul_zero] at product
  exact absurd product (by decide)

/-- Inverting twice gives the byte back, since a is an inverse of `inv(a)`. -/
theorem gfInv_involutive : Function.Involutive gfInv := by
  intro a
  by_cases ha : a = 0
  · rw [ha, gfInv_zero, gfInv_zero]
  · have product : gfMul (gfInv a) a = 1 := by rw [gfMul_comm, gfMul_gfInv ha]
    exact (eq_gfInv_of_gfMul_eq_one (gfInv_ne_zero ha) product).symm

/-- Settles O38: the power 254 is an inverse, and by the laws of the product there is no other. -/
theorem fieldInverseIsUnique : Obligations.FieldInverseIsUnique := by
  refine ⟨gfInv_zero, fun a b ha => ⟨eq_gfInv_of_gfMul_eq_one ha, fun hb => ?_⟩⟩
  rw [hb, gfMul_gfInv ha]

/-! ### The S-box (R103, R104) -/

/-- Bit i of a byte turned left by k comes from bit `i - k`, which is `i + m` modulo 8 for `m = 8 - k`. -/
theorem getLsbD_rotateLeft_byte (b : Byte) {k m : Nat} (hm : 0 < m) (hkm : k + m = 8) (i : Fin 8) :
    (b.rotateLeft k).getLsbD i = b.getLsbD ((i + m) % 8) := by
  rw [BitVec.getLsbD_rotateLeft, Nat.mod_eq_of_lt (by omega)]
  by_cases hi : i.val < k
  · have source : 8 - k + i.val = (i + m) % 8 := by omega
    rw [decide_eq_true hi, cond_true, source]
  · have source : i.val - k = (i + m) % 8 := by omega
    rw [decide_eq_false hi, cond_false, decide_eq_true i.isLt, Bool.true_and, source]

/-- An entry of the table with its affine map undone is an inverse, and there is one inverse only. -/
theorem sbox_eq_sboxAffine (x : Byte) : sbox x = sboxAffine (gfInv x) := by
  by_cases hx : x = 0
  · rw [hx, gfInv_zero]; decide
  · rw [← eq_gfInv_of_gfMul_eq_one hx (gfMul_sboxAffineInv_sbox hx), sboxAffine_sboxAffineInv]

theorem getLsbD_sboxAffine (b : Byte) (i : Fin 8) : (sboxAffine b).getLsbD i =
    ((b.getLsbD i ^^ b.getLsbD ((i + 4) % 8)) ^^ (b.getLsbD ((i + 5) % 8) ^^ b.getLsbD ((i + 6) % 8)) ^^
      (b.getLsbD ((i + 7) % 8) ^^ (0x63#8).getLsbD i)) := by
  have regrouped : sboxAffine b =
      (b ^^^ b.rotateLeft 4) ^^^ (b.rotateLeft 3 ^^^ b.rotateLeft 2) ^^^ (b.rotateLeft 1 ^^^ 0x63#8) := by
    rw [sboxAffine]; ac_rfl
  have turned {k m : Nat} (hm : 0 < m) (hkm : k + m = 8) := getLsbD_rotateLeft_byte b hm hkm i
  simp only [regrouped, BitVec.getLsbD_xor, turned (m := 4) (by decide) rfl, turned (m := 5) (by decide) rfl,
    turned (m := 6) (by decide) rfl, turned (m := 7) (by decide) rfl]

theorem sboxAffine_bijective : Function.Bijective sboxAffine := by
  have left_inv : ∀ b, sboxAffineInv (sboxAffine b) = b := by decide +kernel
  exact Function.bijective_iff_has_inverse.2 ⟨sboxAffineInv, left_inv, sboxAffine_sboxAffineInv⟩

theorem sbox_bijective : Function.Bijective sbox := by
  rw [funext sbox_eq_sboxAffine]
  exact sboxAffine_bijective.comp gfInv_involutive.bijective

/-- Settles O40: the table is the affine map after the inverse, and both are bijections; the points that S might
leave or complement are looked up. -/
theorem sboxTableIsAffineInverse : Obligations.SboxTableIsAffineInverse := by
  refine ⟨fun x i => ?bits, sbox_eq_sboxAffine, sbox_bijective, ?noFixedPoints⟩
  case bits => rw [sbox_eq_sboxAffine, getLsbD_sboxAffine]
  case noFixedPoints => decide +kernel

end Sys2Proof.Machine
end

section
/-!
PROOF. The round steps cell by cell and the rounds of the cipher in order (R105 to R112).
-/
namespace Sys2Proof.Machine

/-! ### SubBytes and ShiftRows (R106, R107) -/

/-- SubBytes works on each byte alone, so it commutes with every selection of bytes. -/
theorem subBytes_select (st : Block) (σ : Fin 16 → Fin 16) :
    subBytes (Vector.ofFn fun i => st[(σ i).val]) = Vector.ofFn fun i => (subBytes st)[(σ i).val] :=
  Vector.ext fun i hi => by simp

theorem subBytes_shiftRows (st : Block) : subBytes (shiftRows st) = shiftRows (subBytes st) :=
  block_ext_cells fun r c => by rw [cell_subBytes, cell_shiftRows, cell_shiftRows, cell_subBytes]

/-- Turning a constant row does not change it. -/
theorem shiftRows_of_constant_rows {st : Block} (h : ∀ r c : Fin 4, cell st r c = cell st r 0) :
    shiftRows st = st :=
  block_ext_cells fun r c => by rw [cell_shiftRows, h, ← h r c]

/-- Settles O41: cell by cell, since both steps say what each cell of their result is. -/
theorem subBytesAndShiftRowsByCell : Obligations.SubBytesAndShiftRowsByCell := fun st =>
  ⟨fun i => subBytes_getElem st i i.isLt, cell_shiftRows st, subBytes_select st, subBytes_shiftRows st,
    shiftRows_of_constant_rows⟩

/-! ### MixColumns (R108) -/

/-- A column of four equal bytes is unchanged, because `2a ^ 3a ^ a ^ a = a`. -/
theorem mixColumn_equal_bytes (a : Byte) (r : Fin 4) : mixColumn a a a a r = a := by
  have cancel : xtime a ^^^ xtime3 a = a := by rw [xtime3, ← BitVec.xor_assoc, BitVec.xor_self, BitVec.zero_xor]
  match r with
  | 0 => rw [mixColumn, cancel, BitVec.xor_self, BitVec.zero_xor]
  | 1 => rw [mixColumn, BitVec.xor_assoc a, cancel, BitVec.xor_self, BitVec.zero_xor]
  | 2 => rw [mixColumn, BitVec.xor_self, BitVec.zero_xor, cancel]
  | 3 =>
    have around : xtime3 a ^^^ a ^^^ a ^^^ xtime a = (xtime a ^^^ xtime3 a) ^^^ (a ^^^ a) := by ac_rfl
    rw [mixColumn, around, cancel, BitVec.xor_self, BitVec.xor_zero]

/-- Settles O42: a column of the result is `mixColumn` of that column, whose xtimes are field products. -/
theorem mixColumnsIsTheMatrix : Obligations.MixColumnsIsTheMatrix := by
  intro st c a b
  have column (r : Fin 4) : b r = mixColumn (a 0) (a 1) (a 2) (a 3) r := cell_mixColumns st r c
  simp only [column, ← xtime_eq_gfMul, ← xtime3_eq_gfMul]
  refine ⟨rfl, rfl, rfl, rfl, fun equal r => ?_⟩
  rw [equal 1, equal 2, equal 3, equal r, mixColumn_equal_bytes]

/-! ### AddRoundKey (R109) -/

theorem addRoundKey_addRoundKey (st k : Block) : addRoundKey (addRoundKey st k) k = st :=
  Vector.ext fun i hi => by
    rw [addRoundKey_getElem, addRoundKey_getElem, BitVec.xor_assoc, BitVec.xor_self, BitVec.xor_zero]

theorem addRoundKey_zero (st : Block) : addRoundKey st (Vector.replicate 16 0) = st :=
  Vector.ext fun i hi => by rw [addRoundKey_getElem, Vector.getElem_replicate]; exact BitVec.xor_zero

/-- Settles O43: byte by byte, by the laws of XOR. -/
theorem addRoundKeyIsItsOwnInverse : Obligations.AddRoundKeyIsItsOwnInverse := fun st k =>
  ⟨fun i => addRoundKey_getElem st k i i.isLt, addRoundKey_addRoundKey st k, addRoundKey_zero st⟩

/-! ### The cipher (R110 to R112) -/

/-- The whitening and the full rounds 1 to n as a loop over the round numbers. -/
theorem roundState_eq_foldl (rk : Nat → Block) (blk : Block) (n : Nat) : roundState rk blk n =
    (List.range n).foldl (fun st r => fullRound st (rk (r + 1))) (addRoundKey blk (rk 0)) := by
  induction n with
  | zero => rfl
  | succ n ih => rw [roundState_succ, ih, List.range_succ, List.foldl_append, List.foldl_cons, List.foldl_nil]

theorem roundState_congr {rk rk' : Nat → Block} {n : Nat} (blk : Block) (h : ∀ i, i ≤ n → rk i = rk' i) :
    roundState rk blk n = roundState rk' blk n := by
  induction n with
  | zero => rw [roundState_zero, roundState_zero, h 0 le_rfl]
  | succ n ih => rw [roundState_succ, roundState_succ, h (n + 1) le_rfl, ih fun i hi => h i (by omega)]

/-- Settles O44: the rounds before the last by induction, each of them reading its own round key. -/
theorem cipherRunsItsRoundsInOrder : Obligations.CipherRunsItsRoundsInOrder := by
  refine ⟨fun rk n blk => congrArg (finalRound · (rk (n + 1))) (roundState_eq_foldl rk blk n),
    fun rk rk' nr blk h => ?_⟩
  rw [aesEncrypt, aesEncrypt, h nr le_rfl, roundState_congr blk fun i hi => h i (by omega)]

end Sys2Proof.Machine
end

section
/-!
PROOF. The key schedule (R120 to R125): each word that the expansion adds follows the recurrence over the words of the
whole schedule, and READ_RK shows these words after a SEED (R141, R162).
-/
namespace Sys2Proof.Machine

variable {nk m n i : Nat} {w : List KeyWord} {key : List Byte} {s : State} {r : Request} {var : BitVec 2}

/-! ### The word functions and the round constants (R120 to R122) -/

theorem subWord_mk (a0 a1 a2 a3 : Byte) : subWord #v[a0, a1, a2, a3] = #v[sbox a0, sbox a1, sbox a2, sbox a3] := rfl

/-- From the second on, a round constant is xtime of the one before. -/
theorem roundConstant_eq_xtime {j : Nat} (h : 2 ≤ j) : roundConstant j = xtime (roundConstant (j - 1)) := by
  obtain ⟨k, rfl⟩ := Nat.exists_eq_add_of_le' h
  rfl

/-- Settles O46: each function by its definition, and the ten round constants by computing them. -/
theorem keyScheduleWordFunctions : Obligations.KeyScheduleWordFunctions :=
  ⟨fun _ _ _ _ => rfl, subWord_mk, by decide, fun _ => roundConstant_eq_xtime, fun _ _ => rfl⟩

/-! ### Extending the schedule (R123) -/

theorem extendSchedule_add (nk m n : Nat) (w : List KeyWord) :
    extendSchedule nk (m + n) w = extendSchedule nk n (extendSchedule nk m w) := by
  induction m generalizing w with
  | zero => rw [Nat.zero_add, extendSchedule_zero]
  | succ m ih => rw [Nat.succ_add, extendSchedule_succ, ih, extendSchedule_succ]

/-- A word made among the first m is the same in every longer schedule. -/
theorem extendSchedule_getD_stage (nk : Nat) (hmn : m ≤ n) (hi : i < w.length + m) :
    (extendSchedule nk n w).getD i zeroKeyWord = (extendSchedule nk m w).getD i zeroKeyWord := by
  obtain ⟨k, rfl⟩ := Nat.exists_eq_add_of_le hmn
  have made : i < (extendSchedule nk m w).length := by rwa [extendSchedule_length]
  rw [extendSchedule_add, List.getD_eq_getElem?_getD, extendSchedule_getElem? nk k _ i made,
    List.getD_eq_getElem?_getD]

/-- The word that is made when m others are is `nextKeyWord` of the schedule so far. -/
theorem extendSchedule_getD_new (nk : Nat) (w : List KeyWord) (m : Nat) :
    (extendSchedule nk (m + 1) w).getD (w.length + m) zeroKeyWord = nextKeyWord nk (extendSchedule nk m w) := by
  have hlen := extendSchedule_length nk m w
  rw [extendSchedule_add, extendSchedule_succ, extendSchedule_zero, ← hlen,
    List.getD_append_right _ _ _ _ le_rfl, Nat.sub_self, List.getD_cons_zero]

/-- Every word that is added follows the recurrence, over the words of the whole schedule. -/
theorem extendSchedule_recurrence (hnk : 0 < nk) (hw : nk ≤ w.length) (hle : w.length ≤ i) (hlt : i < w.length + n) :
    (extendSchedule nk n w).getD i zeroKeyWord =
      xorWord ((extendSchedule nk n w).getD (i - nk) zeroKeyWord)
        (scheduleTemp nk i ((extendSchedule nk n w).getD (i - 1) zeroKeyWord)) := by
  obtain ⟨m, rfl⟩ := Nat.exists_eq_add_of_le hle
  rw [extendSchedule_getD_stage nk (m := m + 1) (by omega) (by omega), extendSchedule_getD_new, nextKeyWord,
    extendSchedule_length, extendSchedule_getD_stage nk (n := n) (m := m) (by omega) (by omega),
    extendSchedule_getD_stage nk (n := n) (m := m) (by omega) (by omega)]

/-! ### The key expansion (R123) -/

theorem keyToWords_getD (key : List Byte) (hi : i < nk) (j : Fin 4) :
    ((keyToWords nk key).getD i zeroKeyWord)[j.val] = key.getD (4 * i + j.val) 0 := by
  simp [keyToWords, hi]

theorem keyExpansion_length (nk : Nat) (key : List Byte) : (keyExpansion nk key).length = 4 * (nk + 6 + 1) := by
  rw [keyExpansion, extendSchedule_length, keyToWords_length]
  omega

/-- The first Nk words of the expansion are the key itself. -/
theorem keyExpansion_getD_key (key : List Byte) (hi : i < nk) :
    (keyExpansion nk key).getD i zeroKeyWord = (keyToWords nk key).getD i zeroKeyWord :=
  extendSchedule_getD_stage nk (m := 0) (Nat.zero_le _) (by rwa [keyToWords_length])

theorem keyExpansion_recurrence (key : List Byte) (hnk : 0 < nk) (hle : nk ≤ i) (hlt : i < 4 * (nk + 6 + 1)) :
    (keyExpansion nk key).getD i zeroKeyWord =
      xorWord ((keyExpansion nk key).getD (i - nk) zeroKeyWord)
        (scheduleTemp nk i ((keyExpansion nk key).getD (i - 1) zeroKeyWord)) := by
  have hlen := keyToWords_length nk key
  exact extendSchedule_recurrence hnk hlen.ge (by rwa [hlen]) (by omega)

/-- Settles O45: the expansion is the key's words and then words that follow the recurrence, for any Nk above 0. -/
theorem keyScheduleRecurrence : Obligations.KeyScheduleRecurrence := by
  intro nk key hnk _
  have positive : 0 < nk := by omega
  refine ⟨keyExpansion_length nk key, fun i hi j => ?key, fun i hle hlt => keyExpansion_recurrence key positive hle hlt⟩
  case key => rw [keyExpansion_getD_key key hi, keyToWords_getD key hi]

/-! ### READ_RK after a SEED (R124, R141, R162) -/

theorem roundKeyBytes_getElem (w : List KeyWord) (k : Nat) (j t : Fin 4) :
    (roundKeyBytes w k)[4 * j.val + t.val] = (w.getD (4 * k + j.val) zeroKeyWord)[t.val] := by
  have hword : (4 * j.val + t.val) / 4 = j.val := by omega
  have hbyte : (4 * j.val + t.val) % 4 = t.val := by omega
  simp only [roundKeyBytes, Vector.getElem_ofFn, hword, hbyte]

theorem seedRoundKeys_getD {k : Nat} (h : k ≤ nrOf var) :
    (seedRoundKeys var key).toList.getD k 0 = fromLEBlock (roundKeyBytes (keyExpansion (nkOf var) key) k) := by
  have hslot : k < 15 := Nat.lt_succ_of_le (h.trans (nrOf_le var))
  simp [seedRoundKeys, hslot, h]

/-- A block that holds the round keys of a key answers READ_RK with them. -/
theorem perform_readRk {idx : BitVec 4} (hs : s.seeded = true)
    (hrk : s.rk = seedRoundKeys s.var key) (hr : r.commandIs (.readRk idx) = true) (hi : idx.toNat ≤ nrOf s.var) :
    (s.perform r).response =
      some ⟨.ok, fromLEBlock (roundKeyBytes (keyExpansion (nkOf s.var) key) idx.toNat)⟩ := by
  rw [perform_command (Request.commandIs_iff.1 hr) (exec_readRk_inside hs hi), State.respond_response,
    State.accept_roundKey, State.roundKey, hrk, seedRoundKeys_getD hi]

/-- A SEED of variant `var` leaves the block seeded, with that variant and the round keys of its key. -/
theorem perform_seed (s : State) (hd : decode r.cmd = .command (.seed (0#2 ++ var))) :
    (s.perform r).seeded = true ∧ (s.perform r).var = var ∧
      (s.perform r).rk = seedRoundKeys var (seedKey var r.din) := by
  have hvar : seedVar (0#2 ++ var) = var := BitVec.extractLsb'_append_eq_right
  rw [perform_command hd (exec_seed ..), hvar]
  exact ⟨rfl, rfl, rfl⟩

/-- Settles O47: the registers a SEED loads are the schedule's round keys, and DOUT's bytes are those of the register. -/
theorem readRkShowsTheSeededSchedule : Obligations.ReadRkShowsTheSeededSchedule := by
  intro s seed q var idx hd hq hi
  obtain ⟨hseeded, hvar, hrk⟩ := perform_seed s hd
  generalize s.perform seed = u at hseeded hvar hrk ⊢
  subst hvar
  refine ⟨_, perform_readRk hseeded hrk hq hi, rfl, fun j t => ?_⟩
  rw [Response.doutBytes, le128_fromLEBlock, roundKeyBytes_getElem]

end Sys2Proof.Machine
end

section
/-!
PROOF. A step runs its request's command (R140), a SEED starts the stream of its variant, key and counter (R141, R149),
and a step keeps the block on its stream (R126, R149).
-/
namespace Sys2Proof.Machine

variable {s t : State} {r : Request} {rest : List PortInput} {i : Instr} {var : BitVec 2} {key : List Byte}
  {c : Word} {j : Nat}

/-- Settles O5: the request that the step accepts is the one in flight. -/
theorem stepRunsDecodedCommand : Obligations.StepRunsDecodedCommand := fun _ _ _ _ => step_command

/-! ### The start of a stream (R141) -/

theorem seedVar_append (var : BitVec 2) : seedVar (0#2 ++ var) = var := BitVec.extractLsb'_append_eq_right

/-- SEED of variant `var`, with its reserved bits 0. -/
theorem exec_seed_variant (var : BitVec 2) (s : State) : exec (.seed (0#2 ++ var)) s =
    .next ((s.loadSeed var (seedRoundKeys var (seedKey var s.din)) (seedCtr var s.din)).respond .ok 0) := by
  rw [exec_seed, seedVar_append]

theorem exec_seed_onStream (h : exec (.seed (0#2 ++ var)) s = .next t) :
    OnStream var (seedKey var s.din) (seedCtr var s.din) 0 t := by
  rw [exec_seed_variant] at h; cases h
  exact ⟨rfl, rfl, rfl, rfl⟩

/-! ### A step along the stream (R149) -/

/-- The registers alone say at which place a block is. -/
theorem OnStream.of_tuple_eq (h : OnStream var key c j s) (hst : t.tuple = s.tuple) : OnStream var key c j t := by
  obtain ⟨hseeded, hvar, hrk, hctr⟩ := State.tuple_eq_iff.1 hst
  exact ⟨hseeded.trans h.seeded, hvar.trans h.variant, hrk.trans h.round_keys, hctr.trans h.counter⟩

/-- A block that holds the round keys of a key encrypts under that key's expansion: the cipher reads the round keys
0 to Nr alone (R112, R124). -/
theorem encryptBlock_of_round_keys (hvar : s.var = var) (hrk : s.rk = seedRoundKeys var key) (blk : Block) :
    s.encryptBlock blk = aesEncrypt (roundKeyBytes (keyExpansion (nkOf var) key)) (nrOf var) blk := by
  obtain ⟨-, reads_used_keys⟩ := cipherRunsItsRoundsInOrder
  subst hvar
  refine reads_used_keys _ _ _ _ fun i hi => ?_
  rw [State.roundKeyBlock, State.roundKey, hrk, seedRoundKeys_getD hi, le128_fromLEBlock]

/-- The response of the NEXT at place j: the encryption of the place's counter under the key's expansion. -/
def streamResponse (var : BitVec 2) (key : List Byte) (c : Word) (j : Nat) : Response :=
  ⟨.ok, fromLEBlock (aesEncrypt (roundKeyBytes (keyExpansion (nkOf var) key)) (nrOf var)
    (le128 (streamCounter var c j)))⟩

/-- A NEXT goes one place on. -/
theorem OnStream.exec_next (h : OnStream var key c j s) (hexec : exec .next s = .next t) :
    OnStream var key c (j + 1) t ∧ t.response = some (streamResponse var key c j) := by
  rw [exec_next_seeded h.seeded] at hexec; cases hexec
  refine ⟨⟨h.seeded, h.variant, h.round_keys, ?counter⟩, ?response⟩
  case counter =>
    rw [State.respond_ctr, State.setCtr_ctr, h.counter, h.variant, streamCounter_succ]
  case response =>
    rw [State.respond_response, encryptBlock_of_round_keys h.variant h.round_keys, h.counter, streamResponse]

/-- A command that is none of SEED, ZEROIZE, NEXT and the jumps changes no register (R47). -/
theorem exec_quiet_tuple (hquiet : r.isQuiet = true) (hd : decode r.cmd = .command i) (hnext : i ≠ .next)
    (h : exec i s = .next t) : t.tuple = s.tuple := by
  have his := Request.commandIs_of_decode hd
  have quiet : ¬ (r.isSeed = true ∨ r.commandIs .jump = true ∨ r.commandIs .longJump = true ∨
      r.commandIs .zeroize = true) := by
    rwa [← Request.isQuiet_eq_false_iff, Bool.not_eq_false]
  obtain hro | ⟨arg, rfl⟩ | rfl | rfl | rfl | rfl := isReadOnly_cases i
  · exact exec_readOnly hro h
  · exact absurd (.inl (Request.isSeed_of_decode hd)) quiet
  · exact absurd (.inr (.inr (.inr his))) quiet
  · exact absurd rfl hnext
  · exact absurd (.inr (.inl his)) quiet
  · exact absurd (.inr (.inr (.inl his))) quiet

/-- A step on a quiet request: a NEXT goes one place on and answers with that place, every other request stays. -/
theorem OnStream.step_quiet (h : OnStream var key c j s) (hin : s.inputs = .request r :: rest)
    (hquiet : r.isQuiet = true) (hstep : step s = .next t) :
    OnStream var key c (if r.commandIs .next then j + 1 else j) t ∧
      (r.commandIs .next = true → t.response = some (streamResponse var key c j)) := by
  have accepted : OnStream var key c j (s.accept r rest) := h.of_tuple_eq rfl
  by_cases hnext : r.commandIs .next = true
  · rw [step_command hin (Request.commandIs_iff.1 hnext)] at hstep
    obtain ⟨moved, answered⟩ := accepted.exec_next hstep
    exact ⟨by rwa [if_pos hnext], fun _ => answered⟩
  · refine ⟨?_, fun hn => absurd hn hnext⟩
    rw [if_neg hnext]
    cases hd : decode r.cmd with
    | illegal why => rw [step_illegal hin hd] at hstep; cases hstep; exact accepted.of_tuple_eq rfl
    | command i =>
      rw [step_command hin hd] at hstep
      have not_next : i ≠ .next := fun hi => hnext (hi ▸ Request.commandIs_of_decode hd)
      exact accepted.of_tuple_eq (exec_quiet_tuple hquiet hd not_next hstep)

/-- Settles O54: SEED writes place 0, and the place moves with CTR, which among the quiet requests only NEXT writes. -/
theorem stepKeepsTheStream : Obligations.StepKeepsTheStream := by
  refine ⟨fun s t r rest var hin hd hstep => ?seed, fun s t r rest var key c j h => h.step_quiet,
    fun s t var key c j h hin hstep => ?idle⟩
  case seed =>
    rw [step_command hin hd] at hstep
    exact exec_seed_onStream hstep
  case idle =>
    rw [step_idle hin] at hstep; cases hstep
    exact h

end Sys2Proof.Machine
end

section
/-!
PROOF. The meanings of SEED, NEXT, COUNTER, JUMP and LONG_JUMP (R141 to R146): the words that raise ERR_ILLEGAL, the
commands that need a seed, what a command answers, and what one request sent again and again does to CTR.
-/
namespace Sys2Proof.Machine

variable {s t u : State} {r q : Request} {i : Instr} {cmd : Byte} {arg : BitVec 4} {why : Illegal} {st : Status}
  {d : Word} {k : Nat} {rs : List Request}

/-! ### How a command ends -/

theorem raisesIllegal_of_decode (hd : decode cmd = .illegal why) : RaisesIllegal cmd := by
  refine ⟨⟨why, hd⟩, fun s r rest hin hcmd => ?_⟩
  subst hcmd
  exact ⟨_, step_illegal hin hd, rfl, rfl, rfl, rfl⟩

/-- A command without ARG is ILLEGAL with any ARG but 0 (R64). -/
theorem raisesIllegal_arg (hi : i.usesArg = false) (harg : arg ≠ 0) : RaisesIllegal (opcode i ++ arg) :=
  raisesIllegal_of_decode ((decode_append_noArg hi arg).trans (if_neg harg))

theorem answers_respond (hinputs : u.inputs = s.inputs) (st : Status) (d : Word) : Answers s (u.respond st d) st d :=
  ⟨rfl, rfl, hinputs⟩

theorem fails_of_exec (h : exec i s = .next (s.respond st 0)) : Fails i s st :=
  ⟨_, h, answers_respond rfl st 0, rfl⟩

/-- A command that needs a seed fails on an unseeded block (R202). -/
theorem fails_unseeded (hi : i.needsSeed = true) (hs : s.seeded = false) : Fails i s .errUnseeded := by
  refine fails_of_exec ?_
  cases i with
  | nop | seed _ | status | zeroize => cases hi
  | next | counter | jump | longJump | encrypt | readRk _ => exact whenSeeded_unseeded hs

/-! ### SEED (R141) -/

theorem seedRoundKeys_getElem (var : BitVec 2) (key : List Byte) (n : Fin 15) : (seedRoundKeys var key)[n.val] =
    if n.val ≤ nrOf var then fromLEBlock (roundKeyBytes (keyExpansion (nkOf var) key) n.val) else 0 := by
  simp only [seedRoundKeys, Vector.getElem_ofFn]

/-- Settles O13: SEED loads the expansion of the key slice and the counter slices of the DIN in flight. -/
theorem seedLoadsKeyCounterVariant : Obligations.SeedLoadsKeyCounterVariant := by
  refine ⟨fun var => ?legal, fun arg harg => ?illegal, fun s r var hr => ?meaning⟩
  case legal => rw [decode_append_seed, seedOf_eq, if_pos BitVec.extractLsb'_append_eq_left]
  case illegal =>
    have hd := (decode_append_seed arg).trans (seedOf_eq arg)
    exact raisesIllegal_of_decode (hd.trans (if_neg harg))
  case meaning =>
    have loaded := exec_seed_variant var s
    rw [State.din_of_inFlight hr] at loaded
    exact ⟨_, loaded, answers_respond rfl _ _, rfl, rfl, seedRoundKeys_getElem var _, rfl⟩

/-! ### NEXT, CTR_INC and COUNTER (R142 to R144) -/

/-- Settles O14: a seeded NEXT by its equation, an unseeded one by the check of R202. -/
theorem nextEncryptsThenAdvances : Obligations.NextEncryptsThenAdvances :=
  ⟨decode_encode (i := .next) rfl, fun _ => raisesIllegal_arg (i := .next) rfl, fun _ =>
    ⟨fun hs => ⟨_, exec_next_seeded hs, answers_respond rfl _ _, rfl, rfl, rfl, rfl⟩, fails_unseeded rfl⟩⟩

/-- Settles O15: the sum of the words, and the sum of the low halves beside the high half. -/
theorem counterIncrementWraps : Obligations.CounterIncrementWraps := by
  intro c
  constructor
  · rw [ctrInc_128, BitVec.toNat_add]; rfl
  · rw [ctrInc_64, joinHalves_toNat, high_toNat, BitVec.toNat_add, low_toNat]; rfl

/-- Settles O16: a seeded COUNTER by its equation, an unseeded one by the check of R202. -/
theorem counterReadsStreamPosition : Obligations.CounterReadsStreamPosition := by
  refine ⟨decode_encode (i := .counter) rfl, fun arg => raisesIllegal_arg (i := .counter) rfl,
    fun s => ⟨fun hs => ?_, fails_unseeded rfl⟩⟩
  refine ⟨_, _, exec_counter_seeded hs, answers_respond rfl _ _, rfl, ?_⟩
  split
  · rw [BitVec.toNat_setWidth_of_le (by decide), low_toNat]
  · rfl

/-! ### Requests that keep the round keys (R126) -/

/-- `t` has the SEEDED, VAR and RK of `s`. -/
structure SameKeys (s t : State) : Prop where
  seeded : t.seeded = s.seeded
  variant : t.var = s.var
  round_keys : t.rk = s.rk

theorem SameKeys.trans (hst : SameKeys s t) (htu : SameKeys t u) : SameKeys s u :=
  ⟨htu.seeded.trans hst.seeded, htu.variant.trans hst.variant, htu.round_keys.trans hst.round_keys⟩

theorem perform_sameKeys (s : State) (hr : r.keepsKeys = true) : SameKeys s (s.perform r) := by
  have keeps : ¬ (r.isSeed = true ∨ r.commandIs .zeroize = true) := by
    rwa [← Request.keepsKeys_eq_false_iff, Bool.not_eq_false]
  cases hd : decode r.cmd with
  | illegal why => rw [perform_illegal hd]; exact ⟨rfl, rfl, rfl⟩
  | command i =>
    obtain ⟨arg, rfl⟩ | rfl | ⟨hseeded, hvar, hrk, -⟩ := exec_writers (exec_perform (s := s) hd)
    · exact absurd (.inl (Request.isSeed_of_decode hd)) keeps
    · exact absurd (.inr (Request.commandIs_of_decode hd)) keeps
    · exact ⟨hseeded, hvar, hrk⟩

theorem performAll_sameKeys (s : State) (hrs : ∀ r ∈ rs, r.keepsKeys = true) : SameKeys s (s.performAll rs) := by
  induction rs generalizing s with
  | nil => exact ⟨rfl, rfl, rfl⟩
  | cons r rs ih =>
    obtain ⟨hr, hrest⟩ := List.forall_mem_cons.1 hrs
    exact (perform_sameKeys s hr).trans (ih (s.perform r) hrest)

/-- The commands that need a seed are neither SEED nor ZEROIZE. -/
theorem Request.keepsKeys_of_needsSeed (hq : q.commandIs i = true) (hi : i.needsSeed = true) : q.keepsKeys = true := by
  have hd := Request.commandIs_iff.1 hq
  cases i with
  | nop | seed _ | status | zeroize => cases hi
  | next | counter | jump | longJump | encrypt | readRk _ =>
    simp [Request.keepsKeys, Request.isSeed, Request.commandIs, hd]

theorem performAll_replicate_sameKeys (s : State) (hq : q.keepsKeys = true) (n : Nat) :
    SameKeys s (s.performAll (List.replicate n q)) :=
  performAll_sameKeys s fun r hr => by rwa [List.eq_of_mem_replicate hr]

/-- A request that moves CTR by `f` under the round keys of `s`, sent n times to `s`, moves it by `f` n times. -/
theorem ctr_performAll_replicate {f : Word → Word} (hq : q.keepsKeys = true)
    (hf : ∀ u, SameKeys s u → (u.perform q).ctr = f u.ctr) (n : Nat) :
    (s.performAll (List.replicate n q)).ctr = f^[n] s.ctr := by
  induction n with
  | zero => rfl
  | succ n ih =>
    have last : s.performAll (List.replicate (n + 1) q) = (s.performAll (List.replicate n q)).perform q := by
      rw [List.replicate_succ', State.performAll, List.foldl_append]; rfl
    rw [last, hf _ (performAll_replicate_sameKeys s hq n), ih, Function.iterate_succ_apply']

/-! ### The jumps (R145, R146) -/

/-- Command i is the jump by `2^k`. -/
inductive JumpsBy : Instr → Nat → Prop where
  | jump : JumpsBy .jump 64
  | longJump : JumpsBy .longJump 96

theorem jumpDistance_eq : jumpDistance = BitVec.ofNat 128 (2 ^ 64) := by decide

theorem longJumpDistance_eq : longJumpDistance = BitVec.ofNat 128 (2 ^ 96) := by decide

theorem JumpsBy.lt (hi : JumpsBy i k) : k < 128 := by cases hi <;> decide

theorem JumpsBy.needsSeed (hi : JumpsBy i k) : i.needsSeed = true := by cases hi <;> rfl

/-- The jump by `2^k` of a seeded C128 block answers CTR and advances it. -/
theorem JumpsBy.exec_wide (hi : JumpsBy i k) (hs : s.seeded = true) (hcw : cwOf s.var = 128) :
    exec i s = .next ((s.setCtr (BitVec.ofNat 128 (2 ^ k) + s.ctr)).respond .ok s.ctr) := by
  have wide : cwOf s.var ≠ 64 := by omega
  cases hi with
  | jump => rw [exec_jump_wide hs wide, jumpDistance_eq]
  | longJump => rw [exec_longJump_wide hs wide, longJumpDistance_eq]

theorem JumpsBy.fails_narrow (hi : JumpsBy i k) (hs : s.seeded = true) (hcw : cwOf s.var = 64) :
    Fails i s .errVariant := by
  refine fails_of_exec ?_
  cases hi with
  | jump => exact exec_jump_narrow hs hcw
  | longJump => exact exec_longJump_narrow hs hcw

/-- Adding `2^k` changes no bit below k. -/
theorem low_bits_add_pow (c : Word) (hk : k ≤ 128) :
    (BitVec.ofNat 128 (2 ^ k) + c).extractLsb' 0 k = c.extractLsb' 0 k := by
  apply BitVec.eq_of_toNat_eq
  have hdvd : 2 ^ k ∣ 2 ^ 128 := Nat.pow_dvd_pow 2 hk
  rw [BitVec.extractLsb'_toNat, BitVec.extractLsb'_toNat, Nat.shiftRight_zero, Nat.shiftRight_zero,
    BitVec.toNat_add, BitVec.toNat_ofNat, Nat.mod_add_mod, Nat.mod_mod_of_dvd _ hdvd, Nat.add_mod_left]

/-- What the jump by `2^k` answers and leaves. -/
theorem JumpsBy.exec_advances (hi : JumpsBy i k) (hs : s.seeded = true) (hcw : cwOf s.var = 128) :
    ∃ t, exec i s = .next t ∧ Answers s t .ok s.ctr ∧ t.ctr.toNat = (s.ctr.toNat + 2 ^ k) % 2 ^ 128 ∧
      t.ctr.extractLsb' 0 k = s.ctr.extractLsb' 0 k ∧ t.seeded = s.seeded ∧ t.var = s.var ∧ t.rk = s.rk := by
  refine ⟨_, hi.exec_wide hs hcw, answers_respond rfl _ _, ?ctr, low_bits_add_pow s.ctr hi.lt.le, rfl, rfl, rfl⟩
  case ctr =>
    rw [State.respond_ctr, State.setCtr_ctr, BitVec.toNat_add, BitVec.toNat_ofNat, Nat.mod_add_mod, Nat.add_comm]

/-- The jump by `2^k` as a request. -/
theorem JumpsBy.perform_wide (hi : JumpsBy i k) (hq : q.commandIs i = true) (hs : s.seeded = true)
    (hcw : cwOf s.var = 128) : s.perform q =
      ((s.accept q s.inputs).setCtr (BitVec.ofNat 128 (2 ^ k) + s.ctr)).respond .ok s.ctr :=
  perform_command (Request.commandIs_iff.1 hq) (hi.exec_wide hs hcw)

/-- Two jumps in a row answer the two start counters. -/
theorem JumpsBy.perform_twice (hi : JumpsBy i k) (hq : q.commandIs i = true) (hs : s.seeded = true)
    (hcw : cwOf s.var = 128) :
    s.responses [q, q] = [⟨.ok, s.ctr⟩, ⟨.ok, BitVec.ofNat 128 (2 ^ k) + s.ctr⟩] ∧
    (s.performAll [q, q]).ctr = BitVec.ofNat 128 (2 ^ k) + (BitVec.ofNat 128 (2 ^ k) + s.ctr) := by
  have first := hi.perform_wide hq hs hcw
  have second : (s.perform q).perform q = _ := hi.perform_wide hq (by rw [first]; exact hs) (by rw [first]; exact hcw)
  have hall : s.performAll [q, q] = (s.perform q).perform q := rfl
  rw [hall, State.responses, State.responses, second, first]
  exact ⟨rfl, rfl⟩

theorem nsmul_ofNat {w : Nat} (n m : Nat) : n • BitVec.ofNat w m = BitVec.ofNat w (n * m) := by
  rw [nsmul_eq_mul, BitVec.natCast_eq_ofNat, BitVec.ofNat_mul]

/-- n jumps by `2^k` advance CTR by `n * 2^k`. -/
theorem JumpsBy.performAll_replicate_ctr (hi : JumpsBy i k) (hq : q.commandIs i = true) (hs : s.seeded = true)
    (hcw : cwOf s.var = 128) (n : Nat) :
    (s.performAll (List.replicate n q)).ctr = BitVec.ofNat 128 (n * 2 ^ k) + s.ctr := by
  have one_jump : ∀ u, SameKeys s u → (u.perform q).ctr = BitVec.ofNat 128 (2 ^ k) + u.ctr := fun u hsu => by
    rw [hi.perform_wide hq (hsu.seeded.trans hs) (hsu.variant ▸ hcw)]; rfl
  rw [ctr_performAll_replicate (Request.keepsKeys_of_needsSeed hq hi.needsSeed) one_jump, add_left_iterate_apply,
    nsmul_ofNat]

/-- Settles O17: JUMP is the jump by `2^64`. -/
theorem jumpAdvancesBy2To64 : Obligations.JumpAdvancesBy2To64 := by
  refine ⟨decode_encode (i := .jump) rfl, fun arg => raisesIllegal_arg (i := .jump) rfl, fun s =>
    ⟨JumpsBy.jump.exec_advances, fails_unseeded rfl, JumpsBy.jump.fails_narrow, fun hs hcw q hq => ?_⟩⟩
  obtain ⟨hresponses, hctr⟩ := JumpsBy.jump.perform_twice hq hs hcw
  rw [← BitVec.add_assoc] at hctr
  exact ⟨hresponses, hctr⟩

/-- Settles O18: LONG_JUMP is the jump by `2^96`, and `2^32` times `2^96` is 0 modulo `2^128`. -/
theorem longJumpAdvancesBy2To96 : Obligations.LongJumpAdvancesBy2To96 := by
  refine ⟨decode_encode (i := .longJump) rfl, fun arg => raisesIllegal_arg (i := .longJump) rfl, fun s =>
    ⟨JumpsBy.longJump.exec_advances, fails_unseeded rfl, JumpsBy.longJump.fails_narrow⟩, fun s q hs hcw hq => ?_⟩
  obtain ⟨hresponses, hctr⟩ := JumpsBy.longJump.perform_twice hq hs hcw
  rw [← BitVec.add_assoc] at hctr
  refine ⟨hresponses, hctr, ?back⟩
  case back =>
    have full_turn : BitVec.ofNat 128 (2 ^ 32 * 2 ^ 96) = 0#128 := by decide
    rw [JumpsBy.longJump.performAll_replicate_ctr hq hs hcw, full_turn, BitVec.zero_add]

end Sys2Proof.Machine
end

section
/-!
PROOF. The stream a SEED begins: its counters in closed form and their period (R143, R149, R150), the outputs along it
(R149), and the snapshot before a jump (R147, R148).
-/
namespace Sys2Proof.Machine

variable {s s₁ t : State} {r q : Request} {rs : List Request} {i : Instr} {var : BitVec 2} {key : List Byte}
  {c : Word} {j k m n : Nat}

/-! ### Increments in closed form, and their period (R143, R150) -/

theorem ctrInc_128_iterate (c : Word) (n : Nat) : (fun x => ctrInc x 128)^[n] c = c + BitVec.ofNat 128 n := by
  have add_one : (fun x => ctrInc x 128) = (· + 1#128) := rfl
  rw [add_one, add_right_iterate_apply, nsmul_ofNat, Nat.mul_one]

theorem ctrInc_64_iterate (c : Word) (n : Nat) : (fun x => ctrInc x 64)^[n] c =
    joinHalves (c.extractLsb' 64 64) (c.extractLsb' 0 64 + BitVec.ofNat 64 n) := by
  induction n with
  | zero => rw [Function.iterate_zero_apply, BitVec.add_zero, joinHalves_eta]
  | succ n ih =>
    rw [Function.iterate_succ_apply', ih, ctrInc_64, joinHalves_high, joinHalves_low, BitVec.ofNat_add,
      BitVec.add_assoc]

theorem ofNat_eq_zero_iff_dvd {w : Nat} (n : Nat) : BitVec.ofNat w n = 0#w ↔ 2 ^ w ∣ n := by
  rw [BitVec.toNat_eq, BitVec.toNat_ofNat, BitVec.toNat_ofNat, Nat.zero_mod, Nat.dvd_iff_mod_eq_zero]

theorem ctrInc_128_period (c : Word) (n : Nat) : (fun x => ctrInc x 128)^[n] c = c ↔ 2 ^ 128 ∣ n := by
  rw [ctrInc_128_iterate, BitVec.add_right_eq_self, ofNat_eq_zero_iff_dvd]

theorem ctrInc_64_period (c : Word) (n : Nat) : (fun x => ctrInc x 64)^[n] c = c ↔ 2 ^ 64 ∣ n := by
  rw [ctrInc_64_iterate, ← ofNat_eq_zero_iff_dvd]
  constructor
  · intro h
    have low := congrArg (BitVec.extractLsb' 0 64) h
    rwa [joinHalves_low, BitVec.add_right_eq_self] at low
  · intro h
    rw [h, BitVec.add_zero, joinHalves_eta]

theorem ctrInc_period (var : BitVec 2) (c : Word) (n : Nat) :
    (fun x => ctrInc x (cwOf var))^[n] c = c ↔ 2 ^ cwOf var ∣ n := by
  unfold cwOf
  split
  · exact ctrInc_128_period c n
  · exact ctrInc_64_period c n

/-- Up to `2^128` increments reach different counters. -/
theorem ctrInc_128_iterate_inj (hm : m < 2 ^ 128) (hn : n < 2 ^ 128)
    (h : (fun x => ctrInc x 128)^[m] c = (fun x => ctrInc x 128)^[n] c) : m = n := by
  rw [ctrInc_128_iterate, ctrInc_128_iterate] at h
  have same_distance := congrArg BitVec.toNat (add_left_cancel h)
  rwa [BitVec.toNat_ofNat, BitVec.toNat_ofNat, Nat.mod_eq_of_lt hm, Nat.mod_eq_of_lt hn] at same_distance

/-! ### NEXTs in a row, and the ranges that a jump separates (R150) -/

theorem ctr_performAll_replicate_next (hs : s.seeded = true) (hq : q.commandIs .next = true) (n : Nat) :
    (s.performAll (List.replicate n q)).ctr = (fun x => ctrInc x (cwOf s.var))^[n] s.ctr := by
  refine ctr_performAll_replicate (Request.keepsKeys_of_needsSeed hq rfl) (fun u hsu => ?_) n
  rw [perform_command (Request.commandIs_iff.1 hq) (exec_next_seeded (hsu.seeded.trans hs)), ← hsu.variant]
  rfl

/-- `2^k` NEXTs reach the counter that the jump by `2^k` leaves. -/
theorem JumpsBy.iterate_eq (hi : JumpsBy i k) (hs : s.seeded = true) (hcw : cwOf s.var = 128)
    (hq : q.commandIs i = true) : (fun x => ctrInc x 128)^[2 ^ k] s.ctr = (s.perform q).ctr := by
  rw [ctrInc_128_iterate, hi.perform_wide hq hs hcw, BitVec.add_comm]
  rfl

/-- The first `2^k` counters from CTR and from the CTR that the jump by `2^k` leaves are disjoint: the second range
starts `2^k` increments later, and both end before CTR comes back. -/
theorem JumpsBy.ranges_disjoint (hi : JumpsBy i k) (hs : s.seeded = true) (hcw : cwOf s.var = 128)
    (hq : q.commandIs i = true) (hm : m < 2 ^ k) (hn : n < 2 ^ k) :
    (fun x => ctrInc x 128)^[m] s.ctr ≠ (fun x => ctrInc x 128)^[n] (s.perform q).ctr := by
  intro h
  rw [← hi.iterate_eq hs hcw hq, ← Function.iterate_add_apply] at h
  have two_ranges : 2 ^ (k + 1) ≤ 2 ^ 128 := Nat.pow_le_pow_right (by decide) hi.lt
  rw [Nat.pow_succ] at two_ranges
  have same_place := ctrInc_128_iterate_inj (by omega) (by omega) h
  omega

/-- Settles O34: n increments add n, which is 0 modulo the period exactly at its multiples; a jump by `2^k` is `2^k`
increments, and fewer than `2^128` increments do not meet again. -/
theorem counterPeriodAndDisjointRanges : Obligations.CounterPeriodAndDisjointRanges := by
  refine ⟨ctrInc_128_period, ctrInc_64_period, fun s q n hs hq => ?nexts, fun s q hs hcw hq => ?jump,
    fun s q hs hcw hq => ?longJump⟩
  case nexts =>
    intro t
    have hctr : t.ctr = _ := ctr_performAll_replicate_next hs hq n
    have back : t.ctr = s.ctr ↔ 2 ^ cwOf s.var ∣ n := by rw [hctr]; exact ctrInc_period ..
    refine ⟨hctr, back, fun hdvd => ?_⟩
    have keys : SameKeys s t := performAll_replicate_sameKeys s (Request.keepsKeys_of_needsSeed hq rfl) n
    have same : t.tuple = s.tuple :=
      State.tuple_eq_iff.2 ⟨keys.seeded, keys.variant, keys.round_keys, back.2 hdvd⟩
    exact (perform_congr same q).2
  case jump => exact ⟨fun m n => JumpsBy.jump.ranges_disjoint hs hcw hq, JumpsBy.jump.iterate_eq hs hcw hq⟩
  case longJump =>
    exact ⟨fun m n => JumpsBy.longJump.ranges_disjoint hs hcw hq, JumpsBy.longJump.iterate_eq hs hcw hq⟩

/-! ### The outputs along a stream (R149) -/

/-- Place n of a stream in closed form. -/
theorem streamCounter_eq (var : BitVec 2) (c : Word) (n : Nat) : streamCounter var c n =
    if var.getLsbD 0 then c + BitVec.ofNat 128 n
    else joinHalves (c.extractLsb' 64 64) (c.extractLsb' 0 64 + BitVec.ofNat 64 n) := by
  rw [streamCounter_eq_iterate]
  split
  case isTrue hwide => rw [cwOf_eq_128.2 hwide, ctrInc_128_iterate]
  case isFalse hnarrow => rw [cwOf_eq_64.2 (Bool.eq_false_iff.2 hnarrow), ctrInc_64_iterate]

theorem OnStream.perform_next (h : OnStream var key c j s) (hq : q.commandIs .next = true) :
    (s.perform q).response = some (streamResponse var key c j) := by
  have accepted : OnStream var key c j (s.accept q s.inputs) := h.of_tuple_eq rfl
  exact (accepted.exec_next (exec_perform (Request.commandIs_iff.1 hq))).2

/-- Quiet requests move the block on by the number of NEXTs among them. -/
theorem OnStream.performAll (h : OnStream var key c j s) (hrs : ∀ r ∈ rs, r.isQuiet = true) :
    OnStream var key c (j + rs.countP (Request.commandIs · .next)) (s.performAll rs) := by
  induction rs generalizing s j with
  | nil => exact h
  | cons r rs ih =>
    obtain ⟨hr, hrest⟩ := List.forall_mem_cons.1 hrs
    have sent : OnStream var key c j (s.withRequest r) := h.of_tuple_eq rfl
    obtain ⟨moved, -⟩ := sent.step_quiet rfl hr (step_withRequest s r)
    have served := ih moved hrest
    have place : (if r.commandIs .next then j + 1 else j) + rs.countP (Request.commandIs · .next) =
        j + (r :: rs).countP (Request.commandIs · .next) := by
      rw [List.countP_cons]; split <;> omega
    rwa [place] at served

/-- Settles O32: the SEED puts the block at place 0, the requests at place n, whose counter has a closed form. -/
theorem streamIsEncryptionOfSuccessiveCounters : Obligations.StreamIsEncryptionOfSuccessiveCounters := by
  intro s₀ seed q rs var hd hrs hq c n cn s
  have start : OnStream var (seedKey var seed.din) c 0 (s₀.perform seed) := exec_seed_onStream (exec_perform hd)
  have place : OnStream var (seedKey var seed.din) c n s := by
    have moved := start.performAll hrs
    rwa [Nat.zero_add] at moved
  have hcn : streamCounter var c n = cn := streamCounter_eq var c n
  refine ⟨place.counter.trans hcn, ?_⟩
  rw [place.perform_next hq, streamResponse, hcn]

/-! ### The snapshot before a jump (R147, R148) -/

/-- A SEED request with the key's bytes and a 16-byte counter field loads the key's expansion. -/
theorem perform_seedRequest_key (s : State) {cbytes : List Byte} (hkey : key.length = keyBytesOf var)
    (hctr : cbytes.length = 16) :
    let g := s.perform (seedRequest var (key ++ cbytes))
    g.seeded = true ∧ g.var = var ∧ g.rk = seedRoundKeys var key := by
  have hlen : (key ++ cbytes).length = seedBytesOf var := by rw [List.length_append, hkey, hctr, seedBytesOf]
  have loaded := perform_seedRequest s var (key ++ cbytes)
  rw [seedKey_padDin hlen, List.take_left' hkey] at loaded
  intro g
  have hg : g = _ := loaded
  rw [hg]
  exact ⟨rfl, rfl, rfl⟩

/-- The clone of a C128 generator holds its registers: the key's expansion and the counter that the host was given. -/
theorem perform_cloneRequest_tuple (s₁ : State) (hvar : s.var.getLsbD 0 = true) (hs : s.seeded = true)
    (hrk : s.rk = seedRoundKeys s.var key) (hkey : key.length = keyBytesOf s.var) :
    (s₁.perform (cloneRequest s.var key s.ctr)).tuple = s.tuple := by
  have cloned := perform_jumpSnapshot s₁ (resp := ⟨.ok, s.ctr⟩) hvar hkey
  have hclone : jumpSnapshot s.var key ⟨.ok, s.ctr⟩ = cloneRequest s.var key s.ctr := rfl
  rw [hclone] at cloned
  rw [cloned]
  exact State.tuple_eq_iff.2 ⟨hs.symm, rfl, hrk.symm, rfl⟩

/-- Settles O33: the requests keep VAR and RK, so the kept key and the jump's DOUT are all of the block's registers. -/
theorem snapshotIsMadeFromKeptKey : Obligations.SnapshotIsMadeFromKeptKey := by
  intro s₀ s₁ var key cbytes rs q resp hvar hkey hcbytes hrs hq g hresp
  obtain ⟨hseeded, hvar₀, hrk⟩ := perform_seedRequest_key s₀ hkey hcbytes
  have keys : SameKeys _ g := performAll_sameKeys _ hrs
  rw [← keys.seeded] at hseeded
  rw [← keys.variant] at hvar₀
  rw [← keys.round_keys] at hrk
  clear_value g
  subst hvar₀
  have hcw := cwOf_eq_128.2 hvar
  obtain ⟨i, k, hi, hq⟩ : ∃ i k, JumpsBy i k ∧ q.commandIs i = true :=
    hq.elim (fun hq => ⟨_, _, .jump, hq⟩) fun hq => ⟨_, _, .longJump, hq⟩
  rw [hi.perform_wide hq hseeded hcw] at hresp ⊢
  cases hresp
  exact ⟨rfl, rfl, rfl, rfl, perform_cloneRequest_tuple s₁ hvar hseeded hrk hkey⟩

end Sys2Proof.Machine
end

section
/-!
PROOF. The control and test commands (R160 to R164): the words that raise ERR_ILLEGAL, what each command answers and
leaves in the registers, and what it answers beside the other commands: ENCRYPT of the counter and NEXT, READ_RK and
the seed's key bytes, ZEROIZE and the data commands after it.
-/
namespace Sys2Proof.Machine

variable {s : State} {r q z : Request} {rs : List Request} {i : Instr} {nk k : Nat} {key : List Byte} {var : BitVec 2}

/-! ### NOP (R160) -/

/-- Settles O12: NOP responds from the state as it is. -/
theorem nopDoesNothing : Obligations.NopDoesNothing :=
  ⟨decode_encode (i := .nop) rfl, fun _ => raisesIllegal_arg (i := .nop) rfl,
    fun s => ⟨_, exec_nop s, answers_respond rfl _ _, rfl⟩⟩

/-! ### ENCRYPT (R161) -/

theorem plaintext_toList (d : Din) : (plaintext d).toList = d.toList.take 16 :=
  List.ext_getElem (by simp) fun j _ _ => by simp [plaintext]

/-- DIN that begins with a word's bytes holds that word as its plaintext. -/
theorem plaintext_eq_le128 {d : Din} {v : Word} (h : d.toList.take 16 = leWordBytes v) : plaintext d = le128 v :=
  Vector.toList_inj.1 ((plaintext_toList d).trans h)

theorem response_perform_next (hs : s.seeded = true) (hq : q.commandIs .next = true) :
    (s.perform q).response = some ⟨.ok, fromLEBlock (s.encryptBlock (le128 s.ctr))⟩ := by
  rw [perform_command (Request.commandIs_iff.1 hq) (exec_next_seeded hs)]
  rfl

/-- Settles O19: ENCRYPT's equation on the plaintext in flight; it leaves the registers that the next NEXT encrypts
the counter with. -/
theorem encryptEncryptsGivenBlock : Obligations.EncryptEncryptsGivenBlock := by
  refine ⟨decode_encode (i := .encrypt) rfl, fun _ => raisesIllegal_arg (i := .encrypt) rfl,
    fun s r hr hs => ?meaning, fun _ => fails_unseeded rfl, fun s e q hs he hq hdin => ?counter⟩
  case meaning =>
    have encrypted := exec_encrypt_seeded hs
    rw [State.din_of_inFlight hr] at encrypted
    exact ⟨_, plaintext r.din, encrypted, plaintext_toList r.din, answers_respond rfl _ _, rfl⟩
  case counter =>
    have encrypted := perform_command (s := s) (Request.commandIs_iff.1 he) (exec_encrypt_seeded hs)
    rw [State.accept_din, plaintext_eq_le128 hdin] at encrypted
    rw [encrypted]
    exact ⟨_, rfl, response_perform_next hs hq⟩

/-! ### READ_RK (R162) -/

theorem State.roundKey_eq_getElem (s : State) (h : k < 15) : s.roundKey k = s.rk[k] := by
  simp [State.roundKey, h]

/-- A round key that lies within the key is the key's own bytes (R123, R124). -/
theorem roundKeyBytes_keyExpansion_toList (hlen : key.length = 4 * nk) (hk : 4 * k + 4 ≤ nk) :
    (roundKeyBytes (keyExpansion nk key) k).toList = (key.drop (16 * k)).take 16 := by
  refine List.ext_getElem (by simp; omega) fun n hn _ => ?_
  have hn16 : n < 16 := by simpa using hn
  have key_word := keyExpansion_getD_key key (nk := nk) (i := 4 * k + n / 4) (by omega)
  have key_byte := keyToWords_getD key (nk := nk) (i := 4 * k + n / 4) (by omega) ⟨n % 4, by omega⟩
  have position : 4 * (4 * k + n / 4) + n % 4 = 16 * k + n := by omega
  have inside : 16 * k + n < key.length := by omega
  simp only [position, List.getD_eq_getElem _ _ inside] at key_byte
  simp only [Vector.getElem_toList, roundKeyBytes, Vector.getElem_ofFn, key_word, key_byte, List.getElem_take,
    List.getElem_drop]

/-- READ_RK after a SEED, at an index within the key, returns those 16 key bytes of the SEED's DIN. -/
theorem perform_seed_readRk_key {idx : BitVec 4} (s : State) (hd : decode r.cmd = .command (.seed (0#2 ++ var)))
    (hq : q.commandIs (.readRk idx) = true) (hidx : 4 * idx.toNat + 4 ≤ nkOf var) :
    ((s.perform r).perform q).response =
      some ⟨.ok, fromLE128 ((r.din.toList.drop (16 * idx.toNat)).take 16)⟩ := by
  obtain ⟨-, -, -, key_bytes, -⟩ := variantParameters var
  have within : idx.toNat ≤ nrOf var := by have := nkOf_add_six var; omega
  have hlen : (seedKey var r.din).length = 4 * nkOf var := (seedKey_length var r.din).trans key_bytes
  have slice : ((seedKey var r.din).drop (16 * idx.toNat)).take 16 =
      (r.din.toList.drop (16 * idx.toNat)).take 16 := by
    rw [seedKey, dinSlice, List.drop_zero, List.drop_take, List.take_take, min_eq_left (by omega)]
  obtain ⟨hseeded, hvar, hrk⟩ := perform_seed s hd
  generalize s.perform r = u at hseeded hvar hrk ⊢
  subst hvar
  rw [perform_readRk hseeded hrk hq within, fromLEBlock, roundKeyBytes_keyExpansion_toList hlen hidx, slice]

/-- Settles O20: READ_RK's equation for each outcome of its checks; the first Nk words of the schedule are the key. -/
theorem readRkReturnsRoundKey : Obligations.ReadRkReturnsRoundKey := by
  refine ⟨decode_append_readRk, fun s idx => ⟨fun hs h15 hi => ?inside, fun hs hi => ?outside, fails_unseeded rfl⟩,
    fun s seed q var hd => ⟨fun hq => ?first, fun hq hvar => ?second⟩⟩
  case inside =>
    rw [← State.roundKey_eq_getElem s h15]
    exact ⟨_, exec_readRk_inside hs hi, answers_respond rfl _ _, rfl⟩
  case outside => exact fails_of_exec (exec_readRk_outside hs hi)
  case first => exact perform_seed_readRk_key s hd hq (by unfold nkOf; split <;> decide)
  case second => exact perform_seed_readRk_key s hd hq (by rw [nkOf, if_pos hvar]; decide)

/-! ### STATUS (R163) -/

/-- The status word as its fields, high bits first. -/
theorem statusWord_eq_append (s : State) :
    statusWord s = 0#124 ++ (s.var ++ BitVec.ofBool s.seeded ++ BitVec.ofBool Config.hwacc) :=
  BitVec.setWidth_eq_append (by decide)

theorem statusWord_seeded (s : State) : (statusWord s).getLsbD 1 = s.seeded := by
  rw [statusWord, BitVec.getLsbD_setWidth, BitVec.getLsbD_append, BitVec.getLsbD_append]
  simp

theorem statusWord_var (s : State) : (statusWord s).extractLsb' 2 2 = s.var := by
  refine BitVec.eq_of_getLsbD_eq fun n hn => ?_
  have position : 2 + n < 128 ∧ ¬ 2 + n < 1 ∧ ¬ 2 + n - 1 < 1 ∧ 2 + n - 1 - 1 = n := by omega
  simp only [statusWord, BitVec.getLsbD_extractLsb', BitVec.getLsbD_setWidth, BitVec.getLsbD_append, position, hn,
    decide_true, Bool.true_and, if_false]

theorem statusWord_high (s : State) : (statusWord s).extractLsb' 4 124 = 0#124 := by
  rw [statusWord_eq_append]
  exact BitVec.extractLsb'_append_eq_left

/-- Settles O21: the status word field by field; an unseeded block that meets the invariant has VAR = 0. -/
theorem statusReportsHwaccSeededVar : Obligations.StatusReportsHwaccSeededVar := by
  refine ⟨decode_encode (i := .status) rfl, fun _ => raisesIllegal_arg (i := .status) rfl,
    fun s => ⟨_, _, exec_status s, answers_respond rfl _ _, rfl, statusWord_hwacc s, statusWord_seeded s,
      statusWord_var s, statusWord_high s⟩, fun s q hinv hs hq => ?unseeded⟩
  case unseeded =>
    obtain ⟨-, hvar, -, -⟩ := State.tuple_eq_iff.1 (hinv.unseeded_is_reset hs)
    rw [perform_command (Request.commandIs_iff.1 hq) (exec_status _), State.respond_response,
      State.accept_statusWord, statusWord, hvar, hs]
    rfl

/-! ### ZEROIZE (R164) -/

/-- Only a SEED seeds a block (R202). -/
theorem perform_unseeded (hs : s.seeded = false) (hr : r.isSeed = false) : (s.perform r).seeded = false := by
  cases hd : decode r.cmd with
  | illegal why => rw [perform_illegal hd]; exact hs
  | command i =>
    obtain ⟨arg, rfl⟩ | rfl | ⟨hseeded, -⟩ := exec_writers (exec_perform (s := s) hd)
    · rw [Request.isSeed_of_decode hd] at hr; cases hr
    · rw [perform_command hd (exec_zeroize _)]; rfl
    · exact hseeded.trans hs

theorem performAll_unseeded (hs : s.seeded = false) (hrs : ∀ r ∈ rs, r.isSeed = false) :
    (s.performAll rs).seeded = false := by
  induction rs generalizing s with
  | nil => exact hs
  | cons r rs ih =>
    obtain ⟨hr, hrest⟩ := List.forall_mem_cons.1 hrs
    exact ih (perform_unseeded hs hr) hrest

/-- An unseeded block answers ERR_UNSEEDED to every data command. -/
theorem response_perform_unseeded (hs : s.seeded = false) (hq : q.commandIs i = true) (hi : i.needsSeed = true) :
    (s.perform q).response = some ⟨.errUnseeded, 0⟩ := by
  obtain ⟨t, hexec, ⟨hresponse, -⟩, -⟩ := fails_unseeded (s := s.accept q s.inputs) hi hs
  rw [perform_command (Request.commandIs_iff.1 hq) hexec, hresponse]

theorem perform_zeroize (s : State) (hz : z.commandIs .zeroize = true) :
    s.perform z = (s.accept z s.inputs).clear.respond .ok 0 :=
  perform_command (Request.commandIs_iff.1 hz) (exec_zeroize _)

/-- Settles O22: ZEROIZE leaves the reset registers, which stay unseeded until a SEED. -/
theorem zeroizeClearsEverything : Obligations.ZeroizeClearsEverything := by
  refine ⟨decode_encode (i := .zeroize) rfl, fun _ => raisesIllegal_arg (i := .zeroize) rfl,
    fun s => ⟨_, exec_zeroize s, answers_respond rfl _ _, rfl, rfl, fun i => ?keys, rfl, rfl⟩,
    fun s z q rs i hz hrs => ?unseeded, fun s z hz => ?again⟩
  case keys => exact Vector.getElem_replicate i.isLt
  case unseeded =>
    have cleared : (s.perform z).seeded = false := by rw [perform_zeroize s hz]; rfl
    exact response_perform_unseeded (performAll_unseeded cleared hrs)
  case again => rw [perform_zeroize _ hz, perform_zeroize s hz]; rfl

end Sys2Proof.Machine
end

section
/-!
PROOF. Errors and what causes them (R200 to R210): the words that are ILLEGAL, the command that fails and with which
status, the status of every request in the order of R206, and that an error leaves no trace.
-/
namespace Sys2Proof.Machine

variable {s t : State} {r : Request} {i : Instr} {cmd : Byte} {arg : BitVec 4} {resp : Response}

/-! ### ERR_ILLEGAL (R201) -/

/-- The three groups of words that R201 lists, by the value of CMD. -/
def ListedIllegal (cmd : Byte) : Prop :=
  0xA0 ≤ cmd.toNat ∨ (0x14 ≤ cmd.toNat ∧ cmd.toNat ≤ 0x1F) ∨
    (cmd.toNat / 16 ∈ [0x0, 0x2, 0x3, 0x4, 0x5, 0x6, 0x8, 0x9] ∧ cmd.toNat % 16 ≠ 0)

/-- The three groups by the fields OPC and ARG. -/
theorem listedIllegal_append (opc arg : BitVec 4) : ListedIllegal (opc ++ arg) ↔
    0xA ≤ opc.toNat ∨ (opc.toNat = 0x1 ∧ 4 ≤ arg.toNat) ∨
      (opc.toNat ∈ [0x0, 0x2, 0x3, 0x4, 0x5, 0x6, 0x8, 0x9] ∧ arg.toNat ≠ 0) := by
  have harg := arg.isLt
  have hword : (opc ++ arg).toNat = 16 * opc.toNat + arg.toNat := by
    rw [BitVec.toNat_append, ← Nat.shiftLeft_add_eq_or_of_lt harg, Nat.shiftLeft_eq]; omega
  have hopc : (16 * opc.toNat + arg.toNat) / 16 = opc.toNat := by omega
  have hmod : (16 * opc.toNat + arg.toNat) % 16 = arg.toNat := by omega
  rw [ListedIllegal, hword, hopc, hmod]
  exact or_congr (by omega) (or_congr_left (by omega))

theorem noArg_illegal_iff : (∃ why, noArg arg i = .illegal why) ↔ arg.toNat ≠ 0 := by
  have harg : arg = 0#4 ↔ arg.toNat = 0 := BitVec.toNat_inj.symm
  unfold noArg; split <;> simp_all

theorem seedOf_illegal_iff : (∃ why, seedOf arg = .illegal why) ↔ 4 ≤ arg.toNat := by
  have variant : ∀ arg : BitVec 4, seedArgOk arg = true ↔ arg.toNat < 4 := by decide
  rw [← Nat.not_lt, ← variant]
  unfold seedOf; split <;> simp [*]

theorem opcode_mem_of_noArg (hi : i.usesArg = false) :
    (opcode i).toNat ∈ [0x0, 0x2, 0x3, 0x4, 0x5, 0x6, 0x8, 0x9] ∧ (opcode i).toNat < 0xA ∧
      (opcode i).toNat ≠ 0x1 := by
  cases i with
  | seed _ | readRk _ => cases hi
  | nop | next | counter | jump | longJump | encrypt | zeroize | status => decide

/-- The ILLEGAL words are those that R201 lists. -/
theorem decode_illegal_iff (cmd : Byte) : (∃ why, decode cmd = .illegal why) ↔ ListedIllegal cmd := by
  rw [← opcOf_append_argOf cmd]
  generalize opcOf cmd = opc, argOf cmd = arg
  rw [listedIllegal_append]
  obtain ⟨i, hi, rfl⟩ | rfl | rfl | hreserved := opcode_cases opc
  · obtain ⟨hmem, hlt, hne⟩ := opcode_mem_of_noArg hi
    rw [decode_append_noArg hi, noArg_illegal_iff]
    simp [hmem, hne, Nat.not_le.2 hlt]
  · rw [decode_append_seed, seedOf_illegal_iff]; simp
  · rw [decode_append_readRk]; simp
  · rw [decode_append_reserved hreserved]
    exact iff_of_true ⟨_, rfl⟩ (.inl hreserved)

/-- Settles O3: the listed words are the ILLEGAL ones, and an ILLEGAL word raises ERR_ILLEGAL in every state. -/
theorem illegalWordsRaiseErrIllegal : Obligations.IllegalWordsRaiseErrIllegal := by
  refine fun cmd => ⟨fun listed => ?illegal, fun unlisted => ?command⟩
  case illegal =>
    obtain ⟨why, hd⟩ := (decode_illegal_iff cmd).2 listed
    exact raisesIllegal_of_decode hd
  case command =>
    cases hd : decode cmd with
    | command i => exact ⟨i, rfl⟩
    | illegal why => exact absurd ((decode_illegal_iff cmd).1 ⟨why, hd⟩) unlisted

/-! ### How a command is answered, check by check (R202 to R204) -/

theorem exec_ok_of_noSeed (hi : i.needsSeed = false) (h : exec i s = .next t) : ∃ d, t.response = some ⟨.ok, d⟩ := by
  cases i with
  | next | counter | jump | longJump | encrypt | readRk _ => cases hi
  | nop | seed _ | status | zeroize => cases h; exact ⟨_, rfl⟩

/-- Settles O23: the six commands begin with the check of SEEDED, and the other four make no check. -/
theorem unseededDataCommandsFail : Obligations.UnseededDataCommandsFail := by
  refine ⟨fun s idx hs => ⟨fails_unseeded rfl hs, fails_unseeded rfl hs, fails_unseeded rfl hs,
    fails_unseeded rfl hs, fails_unseeded rfl hs, fails_unseeded rfl hs⟩, fun s t arg resp hexec hresp => ?never⟩
  case never =>
    obtain ⟨d, hok⟩ : ∃ d, t.response = some ⟨.ok, d⟩ := by
      obtain h | h | h | h := hexec <;> exact exec_ok_of_noSeed rfl h
    cases hresp.symm.trans hok
    exact nofun

theorem fails_variant (hi : i.isJump = true) (hs : s.seeded = true) (hvar : s.var.getLsbD 0 = false) :
    Fails i s .errVariant := by
  refine fails_of_exec ?_
  cases i with
  | jump => exact exec_jump_narrow hs (cwOf_eq_64.2 hvar)
  | longJump => exact exec_longJump_narrow hs (cwOf_eq_64.2 hvar)
  | nop | seed _ | next | counter | encrypt | readRk _ | status | zeroize => cases hi

/-- Settles O24: VAR[0] = 0 is the width 64 that the check of both jumps refuses. -/
theorem jumpsFailOnC64 : Obligations.JumpsFailOnC64 := fun _ hs hvar =>
  ⟨fails_variant rfl hs hvar, fails_variant rfl hs hvar⟩

theorem fails_range (hi : i.outOfRange s = true) (hs : s.seeded = true) : Fails i s .errRange := by
  cases i with
  | readRk idx => exact fails_of_exec (exec_readRk_outside hs (of_decide_eq_true hi))
  | nop | seed _ | next | counter | jump | longJump | encrypt | status | zeroize => cases hi

/-- Settles O25: the last valid index is Nr, which the key-size bit VAR[1] fixes. -/
theorem readRkRangeIsChecked : Obligations.ReadRkRangeIsChecked := fun _ _ hs =>
  ⟨fun above => fails_range (decide_eq_true above) hs, fun inside => ⟨_, _, exec_readRk_inside hs inside, rfl, rfl⟩⟩

/-- A command that passes every check it makes is answered OK. -/
theorem exec_ok (hseed : i.needsSeed = true → s.seeded = true) (hvar : i.isJump = true → s.var.getLsbD 0 = true)
    (hrange : i.outOfRange s = false) : ∃ (u : State) (d : Word), exec i s = .next (u.respond .ok d) := by
  cases i with
  | nop | seed _ | status | zeroize => exact ⟨_, _, rfl⟩
  | next => exact ⟨_, _, exec_next_seeded (hseed rfl)⟩
  | counter => exact ⟨_, _, exec_counter_seeded (hseed rfl)⟩
  | encrypt => exact ⟨_, _, exec_encrypt_seeded (hseed rfl)⟩
  | jump => exact ⟨_, _, exec_jump_wide (hseed rfl) (cwOf_ne_64.2 (hvar rfl))⟩
  | longJump => exact ⟨_, _, exec_longJump_wide (hseed rfl) (cwOf_ne_64.2 (hvar rfl))⟩
  | readRk idx => exact ⟨_, _, exec_readRk_inside (hseed rfl) (Nat.not_lt.1 (of_decide_eq_false hrange))⟩

/-! ### The first error in the order of R206 -/

/-- The outcome is a response with this status. -/
def EndsWith (o : Result) (st : Status) : Prop :=
  ∃ t resp, o = .next t ∧ t.response = some resp ∧ resp.status = st

theorem Fails.endsWith {e : Status} (h : Fails i s e) : EndsWith (exec i s) e := by
  obtain ⟨t, hexec, ⟨hresponse, -⟩, -⟩ := h
  exact ⟨t, _, hexec, hresponse, rfl⟩

theorem needsSeed_of_isJump (hi : i.isJump = true) : i.needsSeed = true := by
  cases i with
  | jump | longJump => rfl
  | nop | seed _ | next | counter | encrypt | readRk _ | status | zeroize => cases hi

theorem needsSeed_of_outOfRange (hi : i.outOfRange s = true) : i.needsSeed = true := by
  cases i with
  | readRk _ => rfl
  | nop | seed _ | next | counter | jump | longJump | encrypt | status | zeroize => cases hi

/-- A command makes its checks in the order of R206. -/
theorem exec_endsWith_statusFor (hd : decode cmd = .command i) : EndsWith (exec i s) (statusFor s cmd) := by
  simp only [statusFor, hd]
  split_ifs with unseeded narrow outside
  case pos =>
    obtain ⟨hneeds, hs⟩ : i.needsSeed = true ∧ s.seeded = false := by simpa using unseeded
    exact (fails_unseeded hneeds hs).endsWith
  all_goals have hseed : i.needsSeed = true → s.seeded = true := by simpa using unseeded
  case pos =>
    obtain ⟨hjump, hvar⟩ : i.isJump = true ∧ s.var.getLsbD 0 = false := by simpa using narrow
    exact (fails_variant hjump (hseed (needsSeed_of_isJump hjump)) hvar).endsWith
  case pos => exact (fails_range outside (hseed (needsSeed_of_outOfRange outside))).endsWith
  case neg =>
    obtain ⟨u, d, hexec⟩ := exec_ok hseed (by simpa using narrow) (by simpa using outside)
    exact ⟨_, _, hexec, rfl, rfl⟩

/-- An unknown word is answered before any command's check, and a command by its checks. -/
theorem step_endsWith_statusFor (s : State) (r : Request) : EndsWith (step (s.withRequest r)) (statusFor s r.cmd) := by
  cases hd : decode r.cmd with
  | command i =>
    rw [step_withRequest_command hd]
    exact exec_endsWith_statusFor (s := s.accept r s.inputs) hd
  | illegal why =>
    rw [step_withRequest_illegal hd, statusFor, hd]
    exact ⟨_, _, rfl, rfl, rfl⟩

theorem isJump_inRange (hi : i.isJump = true) (s : State) : i.outOfRange s = false := by
  cases i with
  | jump | longJump => rfl
  | nop | seed _ | next | counter | encrypt | readRk _ | status | zeroize => cases hi

/-- Settles O27: the checks stand in the order of R206, and only READ_RK, which is no jump, carries an index. -/
theorem firstErrorInOrderIsReported : Obligations.FirstErrorInOrderIsReported := by
  refine ⟨step_endsWith_statusFor, fun i s ⟨hjump, hout⟩ => ?_, fun st => ?_⟩
  · rw [isJump_inRange hjump] at hout; cases hout
  · cases st <;> rfl

/-! ### An error changes nothing (R205) -/

theorem perform_error (hresp : (s.perform r).response = some resp) (herr : resp.status ≠ .ok) :
    (s.perform r).tuple = s.tuple ∧ resp.dout = 0 := by
  cases hd : decode r.cmd with
  | command i =>
    obtain ⟨u, st, d, hexec, -, unchanged⟩ := exec_cases i (s.accept r s.inputs)
    rw [perform_command hd hexec] at hresp ⊢
    cases hresp
    obtain ⟨rfl, rfl⟩ := unchanged herr
    exact ⟨rfl, rfl⟩
  | illegal why =>
    rw [perform_illegal hd] at hresp ⊢
    cases hresp
    exact ⟨rfl, rfl⟩

/-- Settles O26: the registers are as before the error, and the next request's answer depends on them alone. -/
theorem errorsChangeNothing : Obligations.ErrorsChangeNothing := by
  intro s t r resp hstep hresp herr
  obtain rfl := perform_of_step hstep
  obtain ⟨htuple, hdout⟩ := perform_error hresp herr
  exact ⟨htuple, hdout, perform_congr htuple⟩

/-! ### A port without a request or without a block (R208, R210) -/

/-- Settles O7: with nothing on the port a step is idle. -/
theorem nothingHappensWithoutRequest : Obligations.NothingHappensWithoutRequest := fun _ => step_idle

theorem Platform.stepAt_absent {p : Platform} {k : Nat} (hk : p.blocks[k]? = none) :
    p.stepAt k = .refused .noBlockPresent := by
  simp [Platform.stepAt, hk]

/-- Settles O51: a number from the number of blocks up names no block. -/
theorem absentBlockIsRefused : Obligations.AbsentBlockIsRefused := by
  intro p k r hk
  have absent : p.blocks[k]? = none := List.getElem?_eq_none hk
  exact ⟨Platform.command_absent absent r, Platform.stepAt_absent absent⟩

end Sys2Proof.Machine
end

section
/-!
PROOF. Reset and hazards (R220 to R228): the reset state, what RESET leaves, that every step completes, and that a host
which seeds first and uses only what its variant has meets no error.
-/
namespace Sys2Proof.Machine

variable {s : State} {r : Request} {rest : List PortInput} {rs : List Request} {i : Instr} {var : BitVec 2}

/-! ### The reset state and RESET (R220, R221) -/

theorem State.reset_rk_getElem (k : Fin 15) : State.reset.rk[k.val] = 0 := Vector.getElem_replicate k.isLt

/-- Settles O36: the reset state is the one a RESET leaves, with nothing on the port. -/
theorem resetMeetsInvariant : Obligations.ResetMeetsInvariant := inv_reset_with_inputs []

/-- Settles O9: the registers by definition, and ZEROIZE by its equation. -/
theorem resetStateAsTabled : Obligations.ResetStateAsTabled :=
  ⟨State.reset_seeded, State.reset_var, State.reset_rk_getElem, State.reset_ctr, rfl,
    fun s => ⟨_, exec_zeroize s, s.clear_tuple⟩⟩

/-- RESET, outside a command or with one in flight, leaves the reset state and the inputs after it. -/
theorem step_reset_first (h : s.inputs = .reset :: rest ∨ s.inputs = .resetInFlight r :: rest) :
    step s = .next { State.reset with inputs := rest } := by
  obtain outside | during := h
  · rw [step_reset outside, takeReset_eq]
  · rw [step_resetInFlight during, dropInFlight_eq]

/-- Settles O8: both forms of RESET leave the reset state with the rest of the port. -/
theorem resetEventGivesResetState : Obligations.ResetEventGivesResetState := fun _ _ _ h =>
  ⟨_, step_reset_first h, rfl, rfl, State.reset_rk_getElem, rfl, rfl, rfl, rfl⟩

/-! ### Every step completes (R209, R210, R228) -/

/-- A request that is first on the port is answered in the step that takes it. -/
theorem step_request (h : s.inputs = .request r :: rest) :
    ∃ (u : State) (st : Status) (d : Word), step s = .next (u.respond st d) ∧ u.inputs = rest := by
  cases hd : decode r.cmd with
  | command i =>
    obtain ⟨u, st, d, hexec, hinputs, -⟩ := exec_cases i (s.accept r rest)
    exact ⟨u, st, d, (step_command h hd).trans hexec, hinputs⟩
  | illegal why => exact ⟨s.accept r rest, .errIllegal, 0, step_illegal h hd, rfl⟩

theorem step_completes (s : State) : ∃ t, step s = .next t := by
  rcases hin : s.inputs with _ | ⟨⟨r⟩ | _ | ⟨r⟩, rest⟩
  case nil => exact ⟨s, step_idle hin⟩
  case cons.request =>
    obtain ⟨u, st, d, hstep, -⟩ := step_request hin
    exact ⟨_, hstep⟩
  case cons.reset => exact ⟨_, (step_reset hin).trans (takeReset_eq rest s)⟩
  case cons.resetInFlight => exact ⟨_, (step_resetInFlight hin).trans (dropInFlight_eq r rest s)⟩

/-- Settles O6: a step is idle, takes a RESET or ends with a response. -/
theorem everyCommandCompletes : Obligations.EveryCommandCompletes := by
  refine ⟨step_completes, fun s r rest hin => ?_⟩
  obtain ⟨u, st, d, hstep, hinputs⟩ := step_request hin
  exact ⟨_, ⟨st, d⟩, hstep, rfl, hinputs, rfl⟩

/-! ### Safe host programs (R202 to R204, R207, R223) -/

theorem safeRun_cons (s : State) (r : Request) (rs : List Request) :
    safeRun s (r :: rs) = true ↔ hostFault (s.perform r) = none ∧ safeRun (s.perform r) rs = true := by
  rw [safeRun, Bool.and_eq_true, Option.isNone_iff_eq_none]

/-- A request whose command passes every check it makes is no fault of the host. -/
theorem hostFault_perform (hd : decode r.cmd = .command i) (hseed : i.needsSeed = true → s.seeded = true)
    (hvar : i.isJump = true → s.var.getLsbD 0 = true) (hrange : i.outOfRange s = false) :
    hostFault (s.perform r) = none := by
  obtain ⟨u, d, hexec⟩ := exec_ok (s := s.accept r s.inputs) hseed hvar hrange
  rw [perform_command hd hexec]
  rfl

/-- `r` is a legal request that keeps the round keys, and asks for nothing that the variant does not have: no jump with
a 64-bit counter, no round key above Nr (R203, R204). -/
def Request.SuitsVariant (r : Request) (var : BitVec 2) : Prop :=
  r.keepsKeys = true ∧ ∃ i, decode r.cmd = .command i ∧ (i.isJump = true → var.getLsbD 0 = true) ∧
    ∀ idx, i = .readRk idx → idx.toNat ≤ nrOf var

theorem outOfRange_eq_false (h : ∀ idx, i = .readRk idx → idx.toNat ≤ nrOf s.var) : i.outOfRange s = false := by
  cases i with
  | readRk idx => exact decide_eq_false (Nat.not_lt.2 (h idx rfl))
  | nop | seed _ | next | counter | jump | longJump | encrypt | zeroize | status => rfl

/-- A seeded block answers OK to requests that suit its variant: each leaves it seeded and of that variant. -/
theorem safeRun_of_seeded (hs : s.seeded = true) (hrs : ∀ r ∈ rs, r.SuitsVariant s.var) : safeRun s rs = true := by
  induction rs generalizing s with
  | nil => rfl
  | cons r rs ih =>
    obtain ⟨⟨hkeeps, i, hd, hjump, hidx⟩, hrest⟩ := List.forall_mem_cons.1 hrs
    obtain ⟨hseeded, hvar, -⟩ := perform_sameKeys s hkeeps
    exact (safeRun_cons s r rs).2 ⟨hostFault_perform hd (fun _ => hs) hjump (outOfRange_eq_false hidx),
      ih (hseeded.trans hs) (by rwa [hvar])⟩

/-- Settles O35: SEED makes no check and leaves the block seeded with its variant, which the other requests suit. -/
theorem programsThatSeedFirstAreSafe : Obligations.ProgramsThatSeedFirstAreSafe := by
  intro s seed var rs hd hrs
  obtain ⟨hseeded, hvar, -⟩ := perform_seed s hd
  exact (safeRun_cons s seed rs).2
    ⟨hostFault_perform hd nofun nofun rfl, safeRun_of_seeded hseeded (by rw [hvar]; exact hrs)⟩

end Sys2Proof.Machine
end
